-- ==== Sys2Proof/Word.lean ====
section
/-! DEFINITION. The word types of the block (spec/00_scope.md R5, R6). Every quantity is unsigned (R6). -/

namespace Sys2Proof

/-- 16 bits: the register `ADDR`, the operand field `ARG`, the response `rsp` (R5, R30, R34). -/
abbrev Word := BitVec 16

/-- 8 bits: the register `SUM`, a data byte, a record field, a character of the line-sink (R5, R8). -/
abbrev Byte := BitVec 8

/-- 4 bits: the argument of `hexchar` (R60), and the opcode field `OP` (R30). -/
abbrev Nibble := BitVec 4

/-- A 20-bit command word (R30). -/
abbrev Command := BitVec 20

end Sys2Proof
end

