-- ==== Sys2Proof/Config.lean ====
section
/-! DEFINITION. The parameters of spec/00_scope.md R5. The spec leaves none open ("None is left open"), and
93_implementation_defined.md says that nothing is "any value" or "parameter", so there is no free value here. -/

namespace Sys2Proof.Config

/-- The address modulus (R5, R21). -/
def addrModulus : Nat := 65536

/-- The checksum modulus (R5). -/
def sumModulus : Nat := 256

/-- The largest `byte_count` a record can carry, and the largest `chunk_size` (R5, R38, R69). -/
def maxByteCount : Nat := 255

/-- `origin_address` where the caller omits it (R5, R15, R70). -/
def defaultOrigin : Word := 0x0000

/-- `chunk_size` where the caller omits it (R5, R15, R70). -/
def defaultChunkSize : Byte := 16

end Sys2Proof.Config
end

