-- ==== Sys2Proof/Syntax.lean ====
section
/-! DEFINITION. The command set: one constructor per row of spec/opcode_table.json (spec/30_encoding.md R31). -/

namespace Sys2Proof

/-- The seven commands (R31). An operand has exactly the width of the field it is taken from (R32), so a byte
command cannot carry a nonzero `ARG[15:8]`. -/
inductive Instr where
  /-- `AT.LOAD a` (R50). -/
  | atLoad (a : Word)
  /-- `AT.CUR` (R51). -/
  | atCur
  /-- `AT.ADV n` (R52). -/
  | atAdv (n : Word)
  /-- `CS.CLR` (R55). -/
  | csClr
  /-- `CS.ADD b` (R56). -/
  | csAdd (b : Byte)
  /-- `CS.NEG` (R57). -/
  | csNeg
  /-- `HX.BYTE b` (R61). -/
  | hxByte (b : Byte)
  deriving DecidableEq, Repr

/-- The row's mnemonic as spec/opcode_table.json spells it. -/
def Instr.mnemonic : Instr → String
  | .atLoad _ => "AT.LOAD"
  | .atCur    => "AT.CUR"
  | .atAdv _  => "AT.ADV"
  | .csClr    => "CS.CLR"
  | .csAdd _  => "CS.ADD"
  | .csNeg    => "CS.NEG"
  | .hxByte _ => "HX.BYTE"

end Sys2Proof
end

