-- ==== Sys2Proof/Machine/Action.lean ====
section
/-! DEFINITION. What the host does, as plain data: the actions of spec/00_scope.md R8, the pseudo-instructions of
spec/30_encoding.md R36 and the interactions of spec/70_reset_and_hazards.md R106. The host's operands may be names it
bound to earlier responses (`x <- AT.CUR`, `c <- CS.NEG`, `(h, l) <- HX.BYTE b`, R36), of which it may hold any number. -/

namespace Sys2Proof.Machine

/-- A name the host binds to a response (R36). The names of the three read commands are kept apart: an address, a checksum
and a pair of characters may bear the same number. Log entry 5. -/
abbrev HostName := Nat

/-- The name that the spec's own expansions bind: their `a`, `c` and `(h, l)` (R65, R66, R70). -/
def ownName : HostName := 0

/-- A byte the host knows, to be presented to `CS.ADD` or `HX.BYTE` or emitted: a number, a half of a held address (R23,
R32), a held checksum (R66), or the first or second character of a held pair (R65). -/
inductive ByteRef where
  | lit (b : Byte)
  | addrHi (x : HostName)
  | addrLo (x : HostName)
  | checksum (x : HostName)
  | first (x : HostName)
  | second (x : HostName)
  deriving DecidableEq, Repr

/-- The address operand of `ENC.DATA`: "a value the host holds, normally the response of an `AT.CUR`" (R66). -/
inductive AddrRef where
  | lit (a : Word)
  | held (x : HostName)
  deriving DecidableEq, Repr

/-- What the host puts on the block's command input in a step (R8, R30). -/
inductive Presented where
  /-- Any 20-bit word, legal or not. -/
  | word (w : Command)
  /-- The word of a command whose operands the host knows. -/
  | instr (i : Instr)
  /-- `CS.ADD` of a byte the host holds. -/
  | csAdd (b : ByteRef)
  /-- `HX.BYTE` of a byte the host holds. -/
  | hxByte (b : ByteRef)
  /-- `AT.ADV n` for a number of any size: the host presents `n mod 65536` (R32). -/
  | atAdv (n : Nat)
  deriving DecidableEq, Repr

/-- One action of the host. -/
inductive Action where
  /-- `x <- p`: present a command word, one step of the block, and take its response, if it has one, under the name `x`
  (R8, R36). -/
  | present (p : Presented) (x : HostName)
  /-- Assert reset, with or without a word on the command input, which is then ignored (R86, R95). -/
  | reset (ignored : Option Presented)
  /-- `emit(c)`: append any 8-bit character the host knows to the line-sink (R7, R8). -/
  | emit (c : ByteRef)
  /-- `HEX2 b` (R65). -/
  | hex2 (b : ByteRef)
  /-- `FIELD b` (R65). -/
  | field (b : ByteRef)
  /-- `ENC.DATA a, data` (R66). -/
  | encData (a : AddrRef) (data : List Byte)
  /-- `ENC.EOF` (R68). -/
  | encEof
  /-- `ENCODE bytes, origin, chunk`; an omitted operand takes its default (R70). -/
  | encode (bytes : List Byte) (origin : Option Word) (chunkSize : Option Byte)
  deriving DecidableEq, Repr

end Sys2Proof.Machine
end

