-- ==== Sys2Proof/WellFormed.lean ====
section
/-! DEFINITION. Well-formedness of commands (spec/30_encoding.md R31, R32) and of the host's pseudo-instructions
(spec/44_record_sequences.md R66, R70). -/

namespace Sys2Proof

/-- Every term of `Instr` is well formed: each operand's type is exactly its field's width, and R50 to R61 give every
value of it a meaning. The checks on raw words (must-be-zero bits, unassigned opcodes, R33) are the decoder's. -/
def Instr.WellFormed : Instr → Bool
  | .atLoad _ => true
  | .atCur    => true
  | .atAdv _  => true
  | .csClr    => true
  | .csAdd _  => true
  | .csNeg    => true
  | .hxByte _ => true

namespace Machine

/-- The precondition of `ENC.DATA`: `1 <= len(data) <= 255` (R66). -/
def dataLengthOk (data : List Byte) : Bool :=
  decide (1 ≤ data.length) && decide (data.length ≤ Config.maxByteCount)

/-- The precondition of `ENCODE` on its 8-bit `chunk_size`: it is in `1..255`, that is, not 0 (R69, R81). -/
def chunkSizeOk (c : Byte) : Bool :=
  decide (1 ≤ c.toNat)

/-- A host action whose own precondition holds; the actions the spec gives no precondition are always well formed. -/
def Action.WellFormed : Action → Bool
  | .present _ _      => true
  | .reset _          => true
  | .emit _           => true
  | .hex2 _           => true
  | .field _          => true
  | .encData _ data   => dataLengthOk data
  | .encEof           => true
  | .encode _ _ chunk => chunkSizeOk (chunk.getD Config.defaultChunkSize)

end Machine
end Sys2Proof
end

