-- ==== Sys2Proof/Decode.lean ====
section
/-! DEFINITION. The command word: its fields, the table of spec/30_encoding.md R31, the decoder (R33, R35) and, after it,
the encoder. Decoding is total on 20-bit words and needs no state (R35). -/

namespace Sys2Proof

/-- `OP = cmd[19:16]` (R30). -/
def opField (w : Command) : Nibble := w.extractLsb' 16 4

/-- `ARG = cmd[15:0]` (R30). -/
def argField (w : Command) : Word := w.extractLsb' 0 16

/-- `ARG[15:8]` (R30). -/
def argHigh (w : Command) : Byte := (argField w).extractLsb' 8 8

/-- `ARG[7:0]` (R30, R32). -/
def argLow (w : Command) : Byte := (argField w).extractLsb' 0 8

/-- Why a word is illegal: the four kinds R33 lists, the first two of them being the unassigned opcodes. -/
inductive Illegal where
  /-- `OP = 0x0`, or `OP = 0x8` to `0xF`. -/
  | unassignedOpcode (op : Nibble)
  /-- `OP = 0x2`, `0x4` or `0x6` with `ARG != 0x0000`. -/
  | argumentNotZero (op : Nibble)
  /-- `OP = 0x5` or `0x7` with `ARG[15:8] != 0x00`. -/
  | argumentHighNotZero (op : Nibble)
  deriving DecidableEq, Repr

/-- A command without an operand requires `ARG = 0x0000` (R30, R33). -/
def decodeNoOperand (w : Command) (i : Instr) : Except Illegal Instr :=
  if argField w = 0 then .ok i else .error (.argumentNotZero (opField w))

/-- A byte command requires `ARG[15:8] = 0x00` and takes `ARG[7:0]` (R30, R32, R33). -/
def decodeByteOperand (w : Command) (i : Byte → Instr) : Except Illegal Instr :=
  if argHigh w = 0 then .ok (i (argLow w)) else .error (.argumentHighNotZero (opField w))

/-- The decoder (R31, R33, R35). -/
def decode (w : Command) : Except Illegal Instr :=
  match (opField w).toNat with
  | 1 => .ok (.atLoad (argField w))
  | 2 => decodeNoOperand w .atCur
  | 3 => .ok (.atAdv (argField w))
  | 4 => decodeNoOperand w .csClr
  | 5 => decodeByteOperand w .csAdd
  | 6 => decodeNoOperand w .csNeg
  | 7 => decodeByteOperand w .hxByte
  | _ => .error (.unassignedOpcode (opField w))

/-- Is the word a command (R31), or illegal (R33)? -/
def isLegal (w : Command) : Bool :=
  match decode w with
  | .ok _    => true
  | .error _ => false

/-- A row of the opcode map: a word selects it when `(cmd & mask) = match` (R31). -/
structure Row where
  mnemonic : String
  mask     : Command
  pattern  : Command
  deriving DecidableEq, Repr

/-- `(cmd & mask) = match` (R31). -/
def Row.selectedBy (r : Row) (w : Command) : Bool := (w &&& r.mask) == r.pattern

/-- The row of a command, with the mask and match that R31 prints. -/
def Instr.row : Instr → Row
  | .atLoad _ => { mnemonic := "AT.LOAD", mask := 0xF0000, pattern := 0x10000 }
  | .atCur    => { mnemonic := "AT.CUR",  mask := 0xFFFFF, pattern := 0x20000 }
  | .atAdv _  => { mnemonic := "AT.ADV",  mask := 0xF0000, pattern := 0x30000 }
  | .csClr    => { mnemonic := "CS.CLR",  mask := 0xFFFFF, pattern := 0x40000 }
  | .csAdd _  => { mnemonic := "CS.ADD",  mask := 0xFFF00, pattern := 0x50000 }
  | .csNeg    => { mnemonic := "CS.NEG",  mask := 0xFFFFF, pattern := 0x60000 }
  | .hxByte _ => { mnemonic := "HX.BYTE", mask := 0xFFF00, pattern := 0x70000 }

/-- The opcode map in the order of R31. -/
def opcodeTable : List Row :=
  [Instr.row (.atLoad 0), Instr.row .atCur, Instr.row (.atAdv 0), Instr.row .csClr,
   Instr.row (.csAdd 0), Instr.row .csNeg, Instr.row (.hxByte 0)]

/-- The opcode number of a command (R31). -/
def Instr.opcode : Instr → Nibble
  | .atLoad _ => 0x1
  | .atCur    => 0x2
  | .atAdv _  => 0x3
  | .csClr    => 0x4
  | .csAdd _  => 0x5
  | .csNeg    => 0x6
  | .hxByte _ => 0x7

/-- The operand field of a command's word (R30, R31). -/
def Instr.arg : Instr → Word
  | .atLoad a => a
  | .atCur    => 0
  | .atAdv n  => n
  | .csClr    => 0
  | .csAdd b  => b.setWidth 16
  | .csNeg    => 0
  | .hxByte b => b.setWidth 16

/-- The encoder: `OP` above `ARG` (R30). -/
def encode (i : Instr) : Command := i.opcode ++ i.arg

/-- The 20-bit word that a table number of `nbits` bits names: a command word is 20 bits (R30), bit 0 the least
significant (R6); every bit above `nbits` is 0. A number of more than 20 significant bits names no word.
DESIGN CHOICE (safe), log entry 10. -/
def commandOfTableWord (nbits w : Nat) : Option Command :=
  if w % 2 ^ nbits < 2 ^ 20 then some (BitVec.ofNat 20 (w % 2 ^ nbits)) else none

/-- The instruction this decoder reads from a word of spec/opcode_table.json. -/
def decodeTableWord (nbits w : Nat) : Option Instr :=
  match commandOfTableWord nbits w with
  | none     => none
  | some cmd =>
    match decode cmd with
    | .ok i    => some i
    | .error _ => none

end Sys2Proof
end

