-- ==== Sys2Proof/Machine/Flags.lean ====
section
/-! DEFINITION. The block has no flags, no condition codes and no status bits (spec/10_state.md R14). What a flag would
record are the carries out of its two adders; both are dropped and stored nowhere. They are written here so that claims
can say what is dropped: no operation of the machine reads them. -/

namespace Sys2Proof.Machine

/-- The carry out of bit 15 of the address adder, discarded (R14, R52). -/
def addrCarryOut (a n : Word) : Bool := decide (Config.addrModulus ≤ a.toNat + n.toNat)

/-- The carry out of bit 7 of the checksum adder, discarded (R14, R56). -/
def sumCarryOut (s b : Byte) : Bool := decide (Config.sumModulus ≤ s.toNat + b.toNat)

end Sys2Proof.Machine
end

