-- ==== Sys2Proof/Machine/Operands.lean ====
section
/-! DEFINITION. Operand assembly and the order of parts (spec/30_encoding.md R32, spec/20_memory.md R23): slices and
concatenations, without sign extension, scaling or shift. -/

namespace Sys2Proof.Machine

/-- `a_hi = a[15:8]` (R6, R23). -/
def highByte (a : Word) : Byte := a.extractLsb' 8 8

/-- `a_lo = a[7:0]` (R6, R23). -/
def lowByte (a : Word) : Byte := a.extractLsb' 0 8

/-- `b[7:4]` (R23). -/
def highNibble (b : Byte) : Nibble := b.extractLsb' 4 4

/-- `b[3:0]` (R23). -/
def lowNibble (b : Byte) : Nibble := b.extractLsb' 0 4

/-- `{first, second}`: the first part in the more significant half (R6, R34). -/
def concatBytes (first second : Byte) : Word := first ++ second

/-- `zext_16(b)` (R7, R57). -/
def zeroExtend16 (b : Byte) : Word := b.setWidth 16

/-- The operand a host presents for an `advance` of any size: `n mod 65536` (R32). -/
def advanceOperand (n : Nat) : Word := BitVec.ofNat 16 (n % Config.addrModulus)

end Sys2Proof.Machine
end

