-- ==== Sys2Proof/Machine/State.lean ====
section
/-! DEFINITION. The state of the machine: the block's two registers (spec/10_state.md R10), the response of the latest
step, and the host that drives the block (spec/00_scope.md R8). Plain data. -/

namespace Sys2Proof.Machine

/-- The host (sequencer): what the spec says the host holds (R8, R13, R15, R22, R36). -/
structure Sequencer where
  /-- What the host does next, in order: its position in its command sequence (R13). Log entry 3. -/
  queue       : List Action
  /-- The addresses held, each under its name, bound by `x <- AT.CUR` (R36, R70); the latest binding first. -/
  addrs       : List (HostName × Word)
  /-- The checksums held, bound by `c <- CS.NEG` (R36, R66). -/
  checksums   : List (HostName × Byte)
  /-- The pairs of characters held, bound by `(h, l) <- HX.BYTE b` (R36, R65). -/
  chars       : List (HostName × (Byte × Byte))
  /-- The line-sink trace, oldest character first (R8, R22). -/
  sink        : List Byte
  /-- The position in the line-sink at which the latest encode's output begins (R96 item 4). Log entry 11. -/
  outputStart : Nat
  deriving DecidableEq, Repr

/-- The machine. -/
structure State where
  /-- `ADDR` (R11). -/
  addr : Word
  /-- `SUM` (R12). -/
  sum  : Byte
  /-- The response of the step that led here, `none` where that step returned none (R34). It is the step's output, not
  state of the block (R17): no command reads it. DESIGN CHOICE (safe), log entry 1. -/
  rsp  : Option Word
  /-- The host. -/
  host : Sequencer
  deriving DecidableEq, Repr

/-- The faults (R80). A fault is an outcome of a step, not a register (R18): it saves nothing, and the state is the one
before the faulting action (R87); the run has no next step until reset (R88). -/
inductive Fault where
  /-- Code 1, raised by the host as the first action of `ENCODE` on a `chunk_size` outside `1..255` (R81); the recorded
  value is that `chunk_size`. Safe: the spec names this fault. -/
  | configurationError (chunkSize : Byte)
  /-- Code 2, raised by the host as the first action of `ENC.DATA` when the data has 0 or more than 255 bytes (R82); the
  recorded value is their number. Safe: the spec names this fault. -/
  | preconditionViolation (k : Nat)
  /-- Code 3, raised by the block in the step of a command word that matches no row of R31 (R83); the recorded value is
  the word. Safe: the spec names this fault. -/
  | illegalCommand (cmd : Command)
  deriving DecidableEq, Repr

/-- Refusals. Every command and every host action has its meaning, so no step answers one. -/
inductive Refusal where
  /-- Raised by `exec`'s arm of an instruction without a meaning; no arm is left so. Safe. -/
  | notModelled (mnemonic : String)
  deriving DecidableEq, Repr

/-- The outcome of a step of this machine. -/
abbrev Outcome := Host.Outcome State Fault Refusal

/-- The host before its first action: nothing planned, no name bound, the line-sink empty (R19). -/
def Sequencer.initial : Sequencer :=
  { queue := [], addrs := [], checksums := [], chars := [], sink := [], outputStart := 0 }

/-- The machine right after reset: `ADDR = 0x0000`, `SUM = 0x00`, no response, the line-sink empty (R19, R95). -/
def State.reset : State :=
  { addr := 0x0000, sum := 0x00, rsp := none, host := Sequencer.initial }

end Sys2Proof.Machine
end

