-- ==== Sys2Proof/Machine/Ops.lean ====
section
/-! DEFINITION. The named operations the meanings are written over: the register accesses, the response, the three
arithmetic functions of the block, reset, and raising a fault. The block has no memory (spec/20_memory.md R20). -/

namespace Sys2Proof.Machine

/-- Read `ADDR` (R7). -/
def State.readAddr (s : State) : Word := s.addr

/-- `ADDR <- v` (R7). -/
def State.writeAddr (s : State) (v : Word) : State := { s with addr := v }

/-- Read `SUM` (R7). -/
def State.readSum (s : State) : Byte := s.sum

/-- `SUM <- v` (R7). -/
def State.writeSum (s : State) (v : Byte) : State := { s with sum := v }

/-- `rsp <- v` (R7). -/
def State.respond (s : State) (v : Word) : State := { s with rsp := some v }

/-- A step that returns no response: `none`, not zero (R34). -/
def State.noResponse (s : State) : State := { s with rsp := none }

/-- The address adder: `(a + n) mod 65536`, the carry discarded (R52, R53). -/
def wrapAddAddr (a n : Word) : Word := BitVec.ofNat 16 ((a.toNat + n.toNat) % Config.addrModulus)

/-- The checksum adder: `(s + b) mod 256`, the carry discarded (R56, R58). -/
def wrapAddSum (s b : Byte) : Byte := BitVec.ofNat 8 ((s.toNat + b.toNat) % Config.sumModulus)

/-- Two's-complement negation of an 8-bit value, `(0x100 - s) & 0xFF` on integers (R6, R57). -/
def negateSum (s : Byte) : Byte := BitVec.ofNat 8 ((0x100 - s.toNat) &&& 0xFF)

/-- Reset asserted in a step: both registers take their reset values, no response; the line-sink and all else the host
holds are not touched (R19, R95). -/
def State.resetBlock (s : State) : State := { s with addr := 0x0000, sum := 0x00, rsp := none }

/-- What a fault does (R87, R88): it saves nothing, changes no register, transfers control nowhere, and the run stops
there; the state is the one before the faulting action. There is no return from it but reset. -/
def raise (f : Fault) : Outcome := .fault f

/-- The code number of a fault (R80). -/
def Fault.code : Fault → Nat
  | .configurationError _    => 1
  | .preconditionViolation _ => 2
  | .illegalCommand _        => 3

end Sys2Proof.Machine
end

