-- ==== Sys2Proof/Machine/AddressWrapAdder.lean ====
section
/-! DEFINITION. The `address_wrap_adder` commands (spec/41_address_wrap_adder.md). None of them raises a fault. -/

namespace Sys2Proof.Machine

/-- `AT.LOAD a`: `ADDR <- a`, no response (R50). -/
def execAtLoad (a : Word) (s : State) : Outcome := .next ((s.writeAddr a).noResponse)

/-- `AT.CUR`: `rsp <- ADDR`, nothing written (R51). -/
def execAtCur (s : State) : Outcome := .next (s.respond s.readAddr)

/-- `AT.ADV n`: `ADDR <- (ADDR + n) mod 65536`, no response, no fault on a wrap (R52, R84). -/
def execAtAdv (n : Word) (s : State) : Outcome := .next ((s.writeAddr (wrapAddAddr s.readAddr n)).noResponse)

end Sys2Proof.Machine
end

