-- ==== Sys2Proof/Machine/ChecksumAccumulator.lean ====
section
/-! DEFINITION. The `checksum_accumulator` commands (spec/42_checksum_accumulator.md). None of them raises a fault. -/

namespace Sys2Proof.Machine

/-- `CS.CLR`: `SUM <- 0x00`, no response (R55). -/
def execCsClr (s : State) : Outcome := .next ((s.writeSum 0x00).noResponse)

/-- `CS.ADD b`: `SUM <- (SUM + b) mod 256`, no response (R56). -/
def execCsAdd (b : Byte) (s : State) : Outcome := .next ((s.writeSum (wrapAddSum s.readSum b)).noResponse)

/-- `CS.NEG`: `rsp <- zext_16((0x100 - SUM) & 0xFF)`, `SUM` unchanged (R57). -/
def execCsNeg (s : State) : Outcome := .next (s.respond (zeroExtend16 (negateSum s.readSum)))

end Sys2Proof.Machine
end

