-- ==== Sys2Proof/Machine/HexFormatter.lean ====
section
/-! DEFINITION. The `hex_formatter` (spec/43_hex_formatter.md): the nibble function, its inverse, and the command
`HX.BYTE`. The numeric codes are the spec's import G1 (log entry 12). -/

namespace Sys2Proof.Machine

/-- `hexchar(n)`: the ASCII code of the uppercase hexadecimal digit of `n` (R60). -/
def hexchar (n : Nibble) : Byte :=
  if n.toNat ≤ 9 then BitVec.ofNat 8 (0x30 + n.toNat) else BitVec.ofNat 8 (0x41 + (n.toNat - 10))

/-- `HX.BYTE b`: `rsp <- { hexchar(b[7:4]), hexchar(b[3:0]) }`, no register read or written (R61). -/
def execHxByte (b : Byte) (s : State) : Outcome :=
  .next (s.respond (concatBytes (hexchar (highNibble b)) (hexchar (lowNibble b))))

/-- The digit a character of `hexchar`'s image spells; none for any other character (R62). -/
def unhexchar (c : Byte) : Option Nibble :=
  if 0x30 ≤ c.toNat ∧ c.toNat ≤ 0x39 then some (BitVec.ofNat 4 (c.toNat - 0x30))
  else if 0x41 ≤ c.toNat ∧ c.toNat ≤ 0x46 then some (BitVec.ofNat 4 (c.toNat - 0x37))
  else none

/-- The byte a pair of characters spells, `16 * n_first + n_second` (R62). -/
def unhexPair (first second : Byte) : Option Byte :=
  match unhexchar first, unhexchar second with
  | some hi, some lo => some (BitVec.ofNat 8 (16 * hi.toNat + lo.toNat))
  | _, _             => none

end Sys2Proof.Machine
end

