-- ==== Sys2Proof/Machine/Dispatch.lean ====
section
/-! DEFINITION. The meaning of each command (spec/30_encoding.md R31, last column). -/

namespace Sys2Proof.Machine

def exec (i : Instr) (s : State) : Host.Outcome State Fault Refusal :=
  match i with
  | .atLoad a => Sys2Proof.Machine.execAtLoad a s
  | .atCur => Sys2Proof.Machine.execAtCur s
  | .atAdv n => Sys2Proof.Machine.execAtAdv n s
  | .csClr => Sys2Proof.Machine.execCsClr s
  | .csAdd b => Sys2Proof.Machine.execCsAdd b s
  | .csNeg => Sys2Proof.Machine.execCsNeg s
  | .hxByte b => Sys2Proof.Machine.execHxByte b s

end Sys2Proof.Machine
end

