-- ==== Sys2Proof/Machine/Records.lean ====
section
/-! DEFINITION. The record line as text (spec/30_encoding.md part 2), the chunker (spec/44_record_sequences.md R69) and
the output of a whole encode as a function of its operands (R70, R72). No command reads or writes any of this: these
functions say what text the host's sequences of commands are for. -/

namespace Sys2Proof.Machine

/-- `COLON`, the character `:` (R39, R65; the code is the spec's import G1, log entry 12). -/
def colonChar : Byte := 0x3A

/-- `NEWLINE`, the character `\n`, a line feed alone (R39, R65; the spec's imports G1, G2, log entry 12). -/
def newlineChar : Byte := 0x0A

/-- The 16 codes of `hexchar`, in the order of the digits (R60). -/
def hexCodes : List Byte :=
  [0x30, 0x31, 0x32, 0x33, 0x34, 0x35, 0x36, 0x37, 0x38, 0x39, 0x41, 0x42, 0x43, 0x44, 0x45, 0x46]

/-- The 18 codes that may reach the line-sink (R39). -/
def sinkCodes : List Byte := colonChar :: newlineChar :: hexCodes

/-- A "2-hex-digit" rendering: two characters, high digit first (R23, R61). -/
def hexPair (b : Byte) : List Byte := [hexchar (highNibble b), hexchar (lowNibble b)]

/-- The sum of a list of bytes modulo 256, from the sum of the empty list, zero (R55, R56, R58). -/
def sumBytes (bytes : List Byte) : Byte := bytes.foldl wrapAddSum 0x00

/-- A record's fields (R38). -/
structure Record where
  byteCount  : Byte
  address    : Word
  recordType : Byte
  data       : List Byte
  checksum   : Byte
  deriving DecidableEq, Repr

/-- The bytes the checksum is computed over: `[byte_count, address_hi, address_lo, record_type] ++ data` (R38). -/
def fieldList (byteCount : Byte) (address : Word) (recordType : Byte) (data : List Byte) : List Byte :=
  [byteCount, highByte address, lowByte address, recordType] ++ data

/-- The field list of a record (R38). -/
def Record.fields (r : Record) : List Byte := fieldList r.byteCount r.address r.recordType r.data

/-- The record with the checksum of its own fields (R38). -/
def makeRecord (address : Word) (recordType : Byte) (data : List Byte) : Record :=
  let count := BitVec.ofNat 8 data.length
  { byteCount := count, address := address, recordType := recordType, data := data,
    checksum := negateSum (sumBytes (fieldList count address recordType data)) }

/-- A data record, type `0x00` (R38, R66). -/
def dataRecord (address : Word) (data : List Byte) : Record := makeRecord address 0x00 data

/-- The end-of-file record: address `0x0000`, type `0x01`, no data (R41, R68). -/
def eofRecord : Record := makeRecord 0x0000 0x01 []

/-- The record line `:CCAAAATT[DD...]SS` and its line end (R37). -/
def Record.line (r : Record) : List Byte :=
  [colonChar] ++ hexPair r.byteCount ++ hexPair (highByte r.address) ++ hexPair (lowByte r.address)
    ++ hexPair r.recordType ++ r.data.flatMap hexPair ++ hexPair r.checksum ++ [newlineChar]

/-- The number of chunks, `ceil(N / c)` (R69). -/
def chunkCount (c n : Nat) : Nat := (n + c - 1) / c

/-- Chunk `j`: `bytes[j*c .. min((j+1)*c, N) - 1]` (R69). -/
def chunkAt (c : Nat) (bytes : List Byte) (j : Nat) : List Byte := (bytes.drop (j * c)).take c

/-- The chunks in ascending order (R69). -/
def chunks (c : Nat) (bytes : List Byte) : List (List Byte) :=
  (List.range (chunkCount c bytes.length)).map (chunkAt c bytes)

/-- The address of data record `j`, `(origin + j*c) mod 65536` (R70). -/
def recordAddress (origin : Word) (c j : Nat) : Word := wrapAddAddr origin (advanceOperand (j * c))

/-- The data records of an encode, in order (R70). -/
def dataRecords (bytes : List Byte) (origin : Word) (c : Nat) : List Record :=
  (List.range (chunkCount c bytes.length)).map
    (fun j => dataRecord (recordAddress origin c j) (chunkAt c bytes j))

/-- All records of an encode: the data records, then the end-of-file record (R70, R71). -/
def encodeRecords (bytes : List Byte) (origin : Word) (c : Nat) : List Record :=
  dataRecords bytes origin c ++ [eofRecord]

/-- The whole output of an encode, as characters (R70). -/
def encodeText (bytes : List Byte) (origin : Word) (c : Nat) : List Byte :=
  (encodeRecords bytes origin c).flatMap Record.line

/-- The target address of data byte `i` of a record at address `a`: `(a + i) mod 65536` (R21). -/
def targetAddress (a : Word) (i : Nat) : Word := wrapAddAddr a (advanceOperand i)

end Sys2Proof.Machine
end

