-- ==== Sys2Proof/Machine/Sequencer.lean ====
section
/-! DEFINITION. The host: how it presents a command word and takes the response (spec/00_scope.md R8,
spec/70_reset_and_hazards.md R105, R106), and the expansions of its pseudo-instructions, each as
spec/44_record_sequences.md writes it. -/

namespace Sys2Proof.Machine

/-! ### What the host holds -/

/-- The host's remaining sequence is replaced. -/
def State.withQueue (s : State) (q : List Action) : State := { s with host := { s.host with queue := q } }

/-- Bind a name: its older binding, if any, is replaced (R36). -/
def bindName {α : Type} (x : HostName) (v : α) (held : List (HostName × α)) : List (HostName × α) :=
  (x, v) :: held.filter (fun e => e.1 != x)

/-- What a name stands for; one that no response was bound to stands for `unbound`. -/
def readName {α : Type} (x : HostName) (unbound : α) (held : List (HostName × α)) : α :=
  (held.lookup x).getD unbound

/-- `x <- rsp` (R36). -/
def State.holdAddr (s : State) (x : HostName) (r : Word) : State :=
  { s with host := { s.host with addrs := bindName x r s.host.addrs } }

/-- `c <- rsp[7:0]` (R36). -/
def State.holdChecksum (s : State) (x : HostName) (r : Word) : State :=
  { s with host := { s.host with checksums := bindName x (lowByte r) s.host.checksums } }

/-- `h <- rsp[15:8]`, `l <- rsp[7:0]` (R36). -/
def State.holdChars (s : State) (x : HostName) (r : Word) : State :=
  { s with host := { s.host with chars := bindName x (highByte r, lowByte r) s.host.chars } }

/-- `emit(c)`: append one character to the line-sink (R7, R8). -/
def State.emitChar (s : State) (c : Byte) : State :=
  { s with host := { s.host with sink := s.host.sink ++ [c] } }

/-- Note the position at which an encode's output begins (R96 item 4). DEDUCED (safe), log entry 11. -/
def State.noteOutputStart (s : State) : State :=
  { s with host := { s.host with outputStart := s.host.sink.length } }

/-- The output of the latest encode: the line-sink from the noted position on (R96 item 4). -/
def Sequencer.output (h : Sequencer) : List Byte := h.sink.drop h.outputStart

/-! A name that no response was bound to stands for what its read command answers right after reset (`AT.CUR`: `0x0000`;
`CS.NEG`: `0x00`; `HX.BYTE 0x00`: `0`, `0`). DESIGN CHOICE (unsafe), log entry 4: the spec binds a name before it uses it. -/

/-- The address held under a name. -/
def Sequencer.addrOf (h : Sequencer) (x : HostName) : Word := readName x 0x0000 h.addrs

/-- The checksum held under a name. -/
def Sequencer.checksumOf (h : Sequencer) (x : HostName) : Byte := readName x 0x00 h.checksums

/-- The pair of characters held under a name. -/
def Sequencer.charsOf (h : Sequencer) (x : HostName) : Byte × Byte := readName x (0x30, 0x30) h.chars

/-- The byte an operand stands for. -/
def ByteRef.value (b : ByteRef) (h : Sequencer) : Byte :=
  match b with
  | .lit b      => b
  | .addrHi x   => highByte (h.addrOf x)
  | .addrLo x   => lowByte (h.addrOf x)
  | .checksum x => h.checksumOf x
  | .first x    => (h.charsOf x).1
  | .second x   => (h.charsOf x).2

/-- The address an operand of `ENC.DATA` stands for. -/
def AddrRef.value (a : AddrRef) (h : Sequencer) : Word :=
  match a with
  | .lit a  => a
  | .held x => h.addrOf x

/-- `a[15:8]` of an address operand (R23). -/
def AddrRef.hi : AddrRef → ByteRef
  | .lit a  => .lit (highByte a)
  | .held x => .addrHi x

/-- `a[7:0]` of an address operand (R23). -/
def AddrRef.lo : AddrRef → ByteRef
  | .lit a  => .lit (lowByte a)
  | .held x => .addrLo x

/-! ### Presenting a command -/

/-- The 20-bit word the host puts on the command input (R30, R31, R32). -/
def Presented.cmd (p : Presented) (h : Sequencer) : Command :=
  match p with
  | .word w   => w
  | .instr i  => encode i
  | .csAdd b  => encode (.csAdd (b.value h))
  | .hxByte b => encode (.hxByte (b.value h))
  | .atAdv n  => encode (.atAdv (advanceOperand n))

/-- The host takes the response in the step of its command (R105, R106), under the name its action gives (R36). A command
that returns no response binds nothing. DEDUCED (safe), log entry 5. -/
def takeResponse (i : Instr) (x : HostName) (s : State) : State :=
  match i with
  | .atLoad _ => s
  | .atCur    => s.rsp.elim s (s.holdAddr x)
  | .atAdv _  => s
  | .csClr    => s
  | .csAdd _  => s
  | .csNeg    => s.rsp.elim s (s.holdChecksum x)
  | .hxByte _ => s.rsp.elim s (s.holdChars x)

/-- One command of the block and the taking of its response (R8). -/
def runInstr (i : Instr) (x : HostName) (s : State) : Outcome :=
  match exec i s with
  | .next t    => .next (takeResponse i x t)
  | .fault f   => .fault f
  | .refused r => .refused r

/-- The block's step on a command word: decode it and perform its one rule (R8, R35), or raise `IllegalCommand` (R83). -/
def runCommand (w : Command) (x : HostName) (s : State) : Outcome :=
  match decode w with
  | .ok i    => runInstr i x s
  | .error _ => raise (.illegalCommand w)

/-! ### The expansions -/

/-- `HEX2 b := (h, l) <- HX.BYTE b ; emit(h) ; emit(l)` (R65). -/
def hex2Expansion (b : ByteRef) : List Action := 
  [.present (.hxByte b) ownName, .emit (.first ownName), .emit (.second ownName)]

/-- `FIELD b := CS.ADD b ; HEX2 b` (R65). -/
def fieldExpansion (b : ByteRef) : List Action := [.present (.csAdd b) ownName, .hex2 b]

/-- The bytes of the field list of a data record, in field order (R66). -/
def dataFields (a : AddrRef) (data : List Byte) : List ByteRef :=
  [.lit (BitVec.ofNat 8 data.length), a.hi, a.lo, .lit 0x00] ++ data.map .lit

/-- The bytes of the field list of the end-of-file record (R68). -/
def eofFields : List ByteRef := [.lit 0x00, .lit 0x00, .lit 0x00, .lit 0x01]

/-- The sequence of one record from its fields: the start mark, a new sum, each field summed and rendered, the checksum
taken and rendered, the line end (R66, R68). -/
def recordExpansion (fields : List ByteRef) : List Action :=
  [.emit (.lit colonChar), .present (.instr .csClr) ownName] ++ fields.map .field
    ++ [.present (.instr .csNeg) ownName, .hex2 (.checksum ownName), .emit (.lit newlineChar)]

/-- The expansion of `ENC.DATA a, data` (R66). -/
def dataExpansion (a : AddrRef) (data : List Byte) : List Action := recordExpansion (dataFields a data)

/-- The expansion of `ENC.EOF` (R68). -/
def eofExpansion : List Action := recordExpansion eofFields

/-- One turn of the driver's loop: `a <- AT.CUR ; ENC.DATA a, ch ; AT.ADV len(ch)` (R70). -/
def chunkExpansion (ch : List Byte) : List Action :=
  [.present (.instr .atCur) ownName, .encData (.held ownName) ch, .present (.atAdv ch.length) ownName]

/-- The expansion of `ENCODE bytes, origin, c` (R70). -/
def encodeExpansion (bytes : List Byte) (origin : Word) (c : Byte) : List Action :=
  [.present (.instr (.atLoad origin)) ownName] ++ (chunks c.toNat bytes).flatMap chunkExpansion ++ [.encEof]

/-! ### The other orders of a record's commands (R67)

`HEX2` and `FIELD` written out, each rendering under a name of its own, so that any number of `HX.BYTE` may come before
their emits. The pair of field `i` is held under the name `i`, that of the checksum under the next one. -/

/-- What is done for field `i`: it is added, rendered, and its two characters are emitted (R65). -/
def fieldActions (b : ByteRef) (i : HostName) : List Action :=
  [.present (.csAdd b) ownName, .present (.hxByte b) i, .emit (.first i), .emit (.second i)]

/-- The commands and emits of one record, in the order of R66. -/
def recordActions (fields : List ByteRef) : List Action :=
  [.emit (.lit colonChar), .present (.instr .csClr) ownName]
    ++ (fields.zipIdx.flatMap fun (b, i) => fieldActions b i)
    ++ [.present (.instr .csNeg) ownName, .present (.hxByte (.checksum ownName)) fields.length,
        .emit (.first fields.length), .emit (.second fields.length), .emit (.lit newlineChar)]

/-- Is the action an `emit`? -/
def Action.isEmit : Action → Bool
  | .emit _ => true
  | _       => false

/-- May `u` come anywhere before `v`? No add before the clear (R67 b), no add after the negation (R67 c), and a response
is used only after its command. -/
def mayPrecede (u v : Action) : Bool :=
  match u, v with
  | .present (.csAdd _) _, .present (.instr .csClr) _                  => false
  | .present (.instr .csNeg) _, .present (.csAdd _) _                  => false
  | .emit (.first x), .present (.hxByte _) y                           => x != y
  | .emit (.second x), .present (.hxByte _) y                          => x != y
  | .present (.hxByte (.checksum _)) _, .present (.instr .csNeg) _     => false
  | _, _                                                               => true

/-- The orders R67 allows for the record of a field list: the same actions, each once (d), the emits in the order written
(a), and nothing before what it must follow (b, c). -/
def AllowedOrder (fields : List ByteRef) (actions : List Action) : Prop :=
  actions.Perm (recordActions fields) ∧
  actions.filter Action.isEmit = (recordActions fields).filter Action.isEmit ∧
  actions.Pairwise (fun u v => mayPrecede u v = true)

/-! ### One action of the host -/

/-- An action that only tells the host what to do next: its expansion goes in front of what remains. Nothing reaches
the block, so there is no response. Log entry 2. -/
def State.expandInto (s : State) (actions : List Action) : State :=
  (s.withQueue (actions ++ s.host.queue)).noResponse

/-- Perform one action of the host; `s` already has it taken off the queue. -/
def perform (act : Action) (s : State) : Outcome :=
  match act with
  | .present p x => runCommand (p.cmd s.host) x s
  | .reset _   => .next s.resetBlock
  | .emit c    => .next ((s.emitChar (c.value s.host)).noResponse)
  | .hex2 b    => .next (s.expandInto (hex2Expansion b))
  | .field b   => .next (s.expandInto (fieldExpansion b))
  | .encData a data =>
    if dataLengthOk data then .next (s.expandInto (dataExpansion a data))
    else raise (.preconditionViolation data.length)
  | .encEof    => .next (s.expandInto eofExpansion)
  | .encode bytes origin chunk =>
    let c := chunk.getD Config.defaultChunkSize
    if chunkSizeOk c then
      .next (s.noteOutputStart.expandInto (encodeExpansion bytes (origin.getD Config.defaultOrigin) c))
    else raise (.configurationError c)

/-- Nothing to do: the block is idle, and idleness changes nothing (R91, R95). Log entry 8. -/
def idle (s : State) : State := s.noResponse

/-- Reset asserted from outside at any time, also after a fault (R88, R95, R106): the host abandons what it was doing;
the next step is the reset, with or without a word on the command input, and then the host follows a new plan.
DESIGN CHOICE (safe), log entry 7. -/
def State.assertReset (s : State) (ignored : Option Presented) (plan : List Action) : State :=
  s.withQueue (.reset ignored :: plan)

/-! ### Sequences of commands, for claims about orders of commands (R28, R53, R58) -/

/-- Commands one after another, each complete before the next (R28). -/
def execList : List Instr → State → Outcome
  | [], s => .next s
  | i :: is, s =>
    match exec i s with
    | .next t    => execList is t
    | .fault f   => .fault f
    | .refused r => .refused r

/-- The responses of a sequence of commands, in order; it ends at the first step that answers no next state. -/
def responses : List Instr → State → List (Option Word)
  | [], _ => []
  | i :: is, s =>
    match exec i s with
    | .next t    => t.rsp :: responses is t
    | .fault _   => []
    | .refused _ => []

end Sys2Proof.Machine
end

