-- ==== Sys2Proof/Machine/Step.lean ====
section
/-! DEFINITION. One step of the machine: the host's next action (spec/00_scope.md R8). The block has no program counter
and fetches nothing (spec/10_state.md R13): the "next instruction" is the word the host presents next. -/

namespace Sys2Proof.Machine

/-- One step: the host's next action, or, where it has none, an idle step. -/
def step (s : State) : Host.Outcome State Fault Refusal :=
  match s.host.queue with
  | []       => .next (idle s)
  | act :: q => perform act (s.withQueue q)

/-- The machine with one more command word in front of the host's sequence, the word that spec/opcode_table.json numbers
`w`. A number that names no 20-bit word presents nothing. Log entries 3, 10. -/
def State.withFetchWord (s : State) (nbits w : Nat) : State :=
  match commandOfTableWord nbits w with
  | some cmd => s.withQueue (.present (.word cmd) ownName :: s.host.queue)
  | none     => s.withQueue []

end Sys2Proof.Machine
end

