-- ==== Sys2Proof/Machine/Parts.lean ====
section
/-! DEFINITION. The three parts of the block (spec/00_scope.md R2) and the part each command belongs to (R9). -/

namespace Sys2Proof.Machine

/-- The parts of the block (R2). -/
inductive Part where
  | addressWrapAdder
  | checksumAccumulator
  | hexFormatter
  deriving DecidableEq, Repr

/-- The part a command belongs to, by its prefix (R9): `AT`, `CS` or `HX`. -/
def partOf : Instr → Part
  | .atLoad _ => .addressWrapAdder
  | .atCur    => .addressWrapAdder
  | .atAdv _  => .addressWrapAdder
  | .csClr    => .checksumAccumulator
  | .csAdd _  => .checksumAccumulator
  | .csNeg    => .checksumAccumulator
  | .hxByte _ => .hexFormatter

end Sys2Proof.Machine
end

