-- ==== Sys2Proof/Safety.lean ====
section
/-! DEFINITION. Runs, and what counts as a safe one, in the terms claims use. -/

namespace Sys2Proof.Machine

/-- `n` steps, stopping at the first fault or refusal: a faulted run has no next step (spec/60_exceptions.md R88). -/
def run : Nat → State → Outcome
  | 0, s => .next s
  | n + 1, s =>
    match step s with
    | .next t    => run n t
    | .fault f   => .fault f
    | .refused r => .refused r

/-- Does the next step present a command word? These are the spec's steps of the block (R8). -/
def State.presentsCommand (s : State) : Bool :=
  match s.host.queue with
  | .present _ _ :: _ => true
  | _               => false

/-- Is the next step an `emit`? -/
def State.emitsChar (s : State) : Bool :=
  match s.host.queue with
  | .emit _ :: _ => true
  | _            => false

/-- How many of the first `n` steps begin in a state with a given property. -/
def countSteps (p : State → Bool) : Nat → State → Nat
  | 0, _ => 0
  | n + 1, s =>
    (if p s then 1 else 0) +
      match step s with
      | .next t    => countSteps p n t
      | .fault _   => 0
      | .refused _ => 0

/-- `s` runs to `t`, presenting `commands` command words and emitting `emits` characters on the way. -/
def RunsTo (s t : State) (commands emits : Nat) : Prop :=
  ∃ n, run n s = .next t ∧ countSteps State.presentsCommand n s = commands ∧ countSteps State.emitsChar n s = emits

/-- An emit that the host of the spec's sequences may have planned: one of the 18 characters, or a character of a held
rendering (R39, R65, R106). Log entry 6. -/
def ByteRef.isSinkChar : ByteRef → Bool
  | .lit c      => decide (c ∈ sinkCodes)
  | .addrHi _   => false
  | .addrLo _   => false
  | .checksum _ => false
  | .first _    => true
  | .second _   => true

/-- Only the 18 codes of R39 stand in the line-sink, the host holds hexadecimal digits as characters (R60), and it plans
to emit nothing else. -/
def OnlySinkCodes (s : State) : Prop :=
  (∀ c ∈ s.host.sink, c ∈ sinkCodes) ∧
  (∀ e ∈ s.host.chars, e.2.1 ∈ hexCodes ∧ e.2.2 ∈ hexCodes) ∧
  (∀ c, .emit c ∈ s.host.queue → c.isSinkChar = true)

/-- The next step presents a word that decodes to `i`. -/
def NextCommand (s : State) (i : Instr) : Prop :=
  ∃ p x q, s.host.queue = .present p x :: q ∧ decode (p.cmd s.host) = .ok i

/-- The next step is a reset. -/
def NextIsReset (s : State) : Prop := ∃ ignored q, s.host.queue = .reset ignored :: q

/-- A safe run: no number of steps from `s` ends in a fault or a refusal. -/
def SafeFrom (s : State) : Prop := ∀ n, ∃ t, run n s = .next t

end Sys2Proof.Machine
end

