-- ==== Sys2Proof/Certificates/Slice0/Obligations.lean ====
section
/-! DEFINITION. The statements for the provers. Each is a rule of the spec, or derived from rules named in its docstring.
Where a docstring says "the spec's D<n>" the rule carries that decision of spec/92_eei_decisions.md: it is the spec's
choice about this hardware, not the model's. `rsp = none` in a next state says that the step returned no response (R34);
`t.host = s.host` says that the line-sink and all else the host holds is unchanged. There is no memory (R20). -/

open Sys2Proof Sys2Proof.Machine

/-! ### Each command: encoding, effect, frame, completion -/

/-- R50 (the spec's D2), whole: in every state `AT.LOAD a` completes, replaces `ADDR`, returns no response and changes
nothing else; a second one is the same as once; its words are exactly those with `OP = 0x1`. -/
def Obligations.AtLoadReplacesAddr : Prop :=
  (∀ (a : Word) (s : State), ∃ t, exec (.atLoad a) s = .next t ∧
    t.addr = a ∧ t.sum = s.sum ∧ t.rsp = none ∧ t.host = s.host ∧ exec (.atLoad a) t = .next t) ∧
  (∀ a : Word, encode (.atLoad a) = 0x10000 ||| a.setWidth 20) ∧
  (∀ w : Command, w &&& 0xF0000 = 0x10000 → decode w = .ok (.atLoad (argField w))) ∧
  (∀ w : Command, opField w = 0x1 → ∃ a, decode w = .ok (.atLoad a))

/-- R51, whole: in every state `AT.CUR` completes, answers `ADDR` and changes nothing; repeated it answers the same;
after reset it answers `0x0000`; a word with `OP = 0x2` and a nonzero `ARG` is illegal. -/
def Obligations.AtCurReturnsAddr : Prop :=
  (∀ s : State, ∃ t, exec .atCur s = .next t ∧
    t.rsp = some s.addr ∧ t.addr = s.addr ∧ t.sum = s.sum ∧ t.host = s.host ∧ exec .atCur t = .next t) ∧
  (∃ t, exec .atCur State.reset = .next t ∧ t.rsp = some 0x0000) ∧
  encode .atCur = 0x20000 ∧
  (∀ w : Command, w &&& 0xFFFFF = 0x20000 ↔ decode w = .ok .atCur) ∧
  (∀ (w : Command) (x : HostName) (s : State), opField w = 0x2 → argField w ≠ 0 →
    runCommand w x s = .fault (.illegalCommand w))

/-- R52, whole: in every state `AT.ADV n` completes; `ADDR` becomes the sum modulo 65536, which is the low 16 bits of the
17-bit sum; no response, nothing else changes, no fault on a wrap; an `n` of any size is presented modulo 65536. -/
def Obligations.AtAdvAddsModulo65536 : Prop :=
  (∀ (n : Word) (s : State), ∃ t, exec (.atAdv n) s = .next t ∧
    t.addr.toNat = (s.addr.toNat + n.toNat) % 65536 ∧
    t.addr = (s.addr.setWidth 17 + n.setWidth 17).setWidth 16 ∧
    t.sum = s.sum ∧ t.rsp = none ∧ t.host = s.host) ∧
  (∀ (n : Nat) (s : State), ∃ t, exec (.atAdv (advanceOperand n)) s = .next t ∧
    t.addr.toNat = (s.addr.toNat + n) % 65536) ∧
  (∀ n : Word, encode (.atAdv n) = 0x30000 ||| n.setWidth 20) ∧
  (∀ w : Command, w &&& 0xF0000 = 0x30000 → decode w = .ok (.atAdv (argField w))) ∧
  (∀ w : Command, opField w = 0x3 → ∃ n, decode w = .ok (.atAdv n))

/-- R55 (the spec's D2), whole: in every state `CS.CLR` completes, sets `SUM` to zero, returns no response and changes
nothing else; a second one is the same as once; a word with `OP = 0x4` and a nonzero `ARG` is illegal. -/
def Obligations.CsClrZeroesSum : Prop :=
  (∀ s : State, ∃ t, exec .csClr s = .next t ∧
    t.sum = 0x00 ∧ t.addr = s.addr ∧ t.rsp = none ∧ t.host = s.host ∧ exec .csClr t = .next t) ∧
  encode .csClr = 0x40000 ∧
  (∀ w : Command, w &&& 0xFFFFF = 0x40000 ↔ decode w = .ok .csClr) ∧
  (∀ (w : Command) (x : HostName) (s : State), opField w = 0x4 → argField w ≠ 0 →
    runCommand w x s = .fault (.illegalCommand w))

/-- R56, whole: in every state `CS.ADD b` completes; `SUM` becomes the sum modulo 256, which is the low 8 bits of the 9-bit
sum; no response, nothing else changes; a word with `OP = 0x5` and a nonzero `ARG[15:8]` is illegal. -/
def Obligations.CsAddAddsModulo256 : Prop :=
  (∀ (b : Byte) (s : State), ∃ t, exec (.csAdd b) s = .next t ∧
    t.sum.toNat = (s.sum.toNat + b.toNat) % 256 ∧
    t.sum = (s.sum.setWidth 9 + b.setWidth 9).setWidth 8 ∧
    t.addr = s.addr ∧ t.rsp = none ∧ t.host = s.host) ∧
  (∀ b : Byte, encode (.csAdd b) = 0x50000 ||| b.setWidth 20) ∧
  (∀ w : Command, w &&& 0xFFF00 = 0x50000 → decode w = .ok (.csAdd (argLow w))) ∧
  (∀ (w : Command) (x : HostName) (s : State), opField w = 0x5 → argHigh w ≠ 0 →
    runCommand w x s = .fault (.illegalCommand w))

/-- R57 (its unchanged `SUM` is the spec's D5), whole: in every state `CS.NEG` completes, answers `{0x00, (0x100 - SUM) &
0xFF}`, in each of the rule's equivalent forms, and changes nothing; repeated it answers the same; a word with
`OP = 0x6` and a nonzero `ARG` is illegal. -/
def Obligations.CsNegReturnsNegatedSum : Prop :=
  (∀ s : State, ∃ t r, exec .csNeg s = .next t ∧ t.rsp = some r ∧
    highByte r = 0x00 ∧
    (lowByte r).toNat = (0x100 - s.sum.toNat) &&& 0xFF ∧
    (lowByte r).toNat = (256 - s.sum.toNat) % 256 ∧
    lowByte r = ~~~s.sum + 1 ∧
    (lowByte r).toNat = (if s.sum = 0x00 then 0 else 0x100 - s.sum.toNat) ∧
    t.sum = s.sum ∧ t.addr = s.addr ∧ t.host = s.host ∧ exec .csNeg t = .next t) ∧
  encode .csNeg = 0x60000 ∧
  (∀ w : Command, w &&& 0xFFFFF = 0x60000 ↔ decode w = .ok .csNeg) ∧
  (∀ (w : Command) (x : HostName) (s : State), opField w = 0x6 → argField w ≠ 0 →
    runCommand w x s = .fault (.illegalCommand w))

/-- R61 (the place of the characters is the spec's D14, the unchanged `SUM` its D6), whole: in every state `HX.BYTE b`
completes, answers the digit of the high nibble and then that of the low nibble, whatever the state, and changes
nothing; a word with `OP = 0x7` and a nonzero `ARG[15:8]` is illegal. -/
def Obligations.HxByteReturnsTwoDigits : Prop :=
  (∀ (b : Byte) (s : State), ∃ t r, exec (.hxByte b) s = .next t ∧ t.rsp = some r ∧
    highByte r = hexchar (b.extractLsb' 4 4) ∧ lowByte r = hexchar (b.extractLsb' 0 4) ∧
    t.addr = s.addr ∧ t.sum = s.sum ∧ t.host = s.host ∧ exec (.hxByte b) t = .next t) ∧
  (∀ b : Byte, encode (.hxByte b) = 0x70000 ||| b.setWidth 20) ∧
  (∀ w : Command, w &&& 0xFFF00 = 0x70000 → decode w = .ok (.hxByte (argLow w))) ∧
  (∀ (w : Command) (x : HostName) (s : State), opField w = 0x7 → argHigh w ≠ 0 →
    runCommand w x s = .fault (.illegalCommand w))

/-- R60: the two formulas of `hexchar`, that it is injective, and that its outputs are exactly the codes `0x30..0x39` and
`0x41..0x46`. The numeric codes are the spec's own import G1 (its D13), log entry 12. -/
def Obligations.HexcharIsUppercaseDigit : Prop :=
  (∀ n : Nibble, n.toNat ≤ 9 → (hexchar n).toNat = 0x30 + n.toNat) ∧
  (∀ n : Nibble, 10 ≤ n.toNat → (hexchar n).toNat = 0x41 + (n.toNat - 10)) ∧
  (∀ n m : Nibble, hexchar n = hexchar m → n = m) ∧
  (∀ c : Byte, (∃ n, hexchar n = c) ↔
    (0x30 ≤ c.toNat ∧ c.toNat ≤ 0x39) ∨ (0x41 ≤ c.toNat ∧ c.toNat ≤ 0x46))

/-- The frame of the seven commands together (R11, R12, R20, R34): none touches the host; only `AT.LOAD` and `AT.ADV` may
change `ADDR`; only `CS.CLR` and `CS.ADD` may change `SUM`; a response is returned by `AT.CUR`, `CS.NEG`, `HX.BYTE` only. -/
def Obligations.CommandsChangeOnlyTheirOwnRegister : Prop :=
  ∀ (i : Instr) (s t : State), exec i s = .next t →
    t.host = s.host ∧
    ((∀ a, i ≠ .atLoad a) → (∀ n, i ≠ .atAdv n) → t.addr = s.addr) ∧
    (i ≠ .csClr → (∀ b, i ≠ .csAdd b) → t.sum = s.sum) ∧
    (t.rsp ≠ none ↔ i = .atCur ∨ i = .csNeg ∨ ∃ b, i = .hxByte b)

/-! ### The command word -/

/-- Words written out from the patterns of R31 decode to the commands they stand for, and neighbours named in R33 are
refused by the decoder. -/
def Obligations.TableWordsDecodeAsPrinted : Prop :=
  decode 0b00011010000000000000 = .ok (.atLoad 0xA000) ∧
  decode 0b00100000000000000000 = .ok .atCur ∧
  decode 0b00110000000000010000 = .ok (.atAdv 0x0010) ∧
  decode 0b01000000000000000000 = .ok .csClr ∧
  decode 0b01010000000001010111 = .ok (.csAdd 0x57) ∧
  decode 0b01100000000000000000 = .ok .csNeg ∧
  decode 0b01110000000010100000 = .ok (.hxByte 0xA0) ∧
  isLegal 0x00000 = false ∧ isLegal 0x20001 = false ∧ isLegal 0x50100 = false ∧ isLegal 0x7FFFF = false

/-- Every command is well formed and is read back from its own word, with every operand at every value (R30 to R32, R35). -/
def Obligations.DecodeOfEncodeIsTheCommand : Prop :=
  ∀ i : Instr, i.WellFormed = true ∧ decode (encode i) = .ok i

/-- A legal word is the word of the command it decodes to: each command has one word (R31, R33). -/
def Obligations.EncodeOfDecodeIsTheWord : Prop :=
  ∀ (w : Command) (i : Instr), decode w = .ok i → encode i = w

/-- R31: the seven `(mask, match)` pairs are disjoint. -/
def Obligations.NoWordMatchesTwoRows : Prop :=
  ∀ (w : Command) (r r' : Row), r ∈ opcodeTable → r' ∈ opcodeTable →
    r.selectedBy w = true → r'.selectedBy w = true → r = r'

/-- R35, R31 (the spec's D1, D2): `decode` answers the command of the first row whose `(mask, match)` the word satisfies,
with the word's own operand (its encoding is the word), and is illegal where there is none. -/
def Obligations.DecodeFollowsTheOpcodeMap : Prop :=
  ∀ w : Command,
    match opcodeTable.find? (fun r => r.selectedBy w) with
    | some r => ∃ i, decode w = .ok i ∧ i.row = r ∧ encode i = w
    | none   => ∃ e, decode w = .error e

/-- R33 (the spec's D3): the illegal words are exactly those it lists. -/
def Obligations.IllegalWordsAreThoseListed : Prop :=
  ∀ w : Command, isLegal w = false ↔
    (opField w).toNat = 0x0 ∨ 0x8 ≤ (opField w).toNat ∨
    (((opField w).toNat = 0x2 ∨ (opField w).toNat = 0x4 ∨ (opField w).toNat = 0x6) ∧ argField w ≠ 0x0000) ∨
    (((opField w).toNat = 0x5 ∨ (opField w).toNat = 0x7) ∧ argHigh w ≠ 0x00)

/-- R33 (the spec's D3): 131587 of the 2^20 words are legal. -/
def Obligations.LegalWordsNumber131587 : Prop :=
  Fintype.card { w : Command // isLegal w = true } = 131587

/-! ### The step -/

/-- R8, R13: when the host's next action presents a word that decodes to `i`, the step is `exec` of `i` on the machine with
that action taken off the host's sequence, and then the host takes the response (R105). -/
def Obligations.StepRunsThePresentedCommand : Prop :=
  ∀ (s : State) (p : Presented) (x : HostName) (q : List Action) (i : Instr),
    s.host.queue = .present p x :: q → decode (p.cmd s.host) = .ok i →
    ∃ t, exec i (s.withQueue q) = .next t ∧ step s = .next (takeResponse i x t) ∧
      (takeResponse i x t).addr = t.addr ∧ (takeResponse i x t).sum = t.sum ∧ (takeResponse i x t).rsp = t.rsp ∧
      (takeResponse i x t).host.queue = q

/-- The word a table number names is the one the very next step runs, for every state (log entry 3). -/
def Obligations.StepRunsTheFetchedTableWord : Prop :=
  ∀ (s : State) (nbits w : Nat) (i : Instr), decodeTableWord nbits w = some i →
    ∃ t, exec i s = .next t ∧ step (s.withFetchWord nbits w) = .next (takeResponse i ownName t)

/-- R83 (the spec's D3): a presented word that matches no row raises `IllegalCommand` with that word, and no other
outcome: no next state, so no register is written, no response is returned and nothing is emitted. -/
def Obligations.IllegalWordRaisesIllegalCommand : Prop :=
  ∀ (s : State) (p : Presented) (x : HostName) (q : List Action),
    s.host.queue = .present p x :: q → isLegal (p.cmd s.host) = false →
    step s = .fault (.illegalCommand (p.cmd s.host))

/-- R36, R105: in the step of its command a response is taken under the name its action gives, which then stands for it;
every other name, and all else the host holds but its position in its sequence, is unchanged; a command without a
response binds nothing. That the host always takes a response is log entry 5 (DEDUCED). -/
def Obligations.ResponsesAreTakenInTheirStep : Prop :=
  ∀ (s t : State) (p : Presented) (x : HostName) (q : List Action),
    s.host.queue = .present p x :: q → step s = .next t →
    (decode (p.cmd s.host) = .ok .atCur →
      t.host = { s.host with queue := q, addrs := t.host.addrs } ∧
      t.host.addrOf x = s.addr ∧ ∀ y, y ≠ x → t.host.addrOf y = s.host.addrOf y) ∧
    (decode (p.cmd s.host) = .ok .csNeg →
      t.host = { s.host with queue := q, checksums := t.host.checksums } ∧
      t.host.checksumOf x = negateSum s.sum ∧ ∀ y, y ≠ x → t.host.checksumOf y = s.host.checksumOf y) ∧
    (∀ b, decode (p.cmd s.host) = .ok (.hxByte b) →
      t.host = { s.host with queue := q, chars := t.host.chars } ∧
      t.host.charsOf x = (hexchar (highNibble b), hexchar (lowNibble b)) ∧
      ∀ y, y ≠ x → t.host.charsOf y = s.host.charsOf y) ∧
    (∀ a, decode (p.cmd s.host) = .ok (.atLoad a) → t.host = { s.host with queue := q }) ∧
    (∀ n, decode (p.cmd s.host) = .ok (.atAdv n) → t.host = { s.host with queue := q }) ∧
    (decode (p.cmd s.host) = .ok .csClr → t.host = { s.host with queue := q }) ∧
    (∀ b, decode (p.cmd s.host) = .ok (.csAdd b) → t.host = { s.host with queue := q })

/-- R7, R8: `emit(c)` appends one 8-bit character to the line-sink: any number, a character of any held pair (R65), or any
other byte the host holds. Registers unchanged, no response, all else the host holds unchanged. -/
def Obligations.EmitAppendsOneCharacter : Prop :=
  ∀ (s : State) (c : ByteRef) (q : List Action), s.host.queue = .emit c :: q →
    ∃ t, step s = .next t ∧ t.addr = s.addr ∧ t.sum = s.sum ∧ t.rsp = none ∧
      t.host = { s.host with queue := q, sink := s.host.sink ++
        [match c with
          | .lit c => c
          | .first x => (s.host.charsOf x).1
          | .second x => (s.host.charsOf x).2
          | .addrHi x => highByte (s.host.addrOf x)
          | .addrLo x => lowByte (s.host.addrOf x)
          | .checksum x => s.host.checksumOf x] }

/-- R91, R95: with nothing to do the block waits, and idleness changes nothing (no response is returned in it). What the
model does in such a step is log entry 8. -/
def Obligations.IdlenessChangesNothing : Prop :=
  ∀ s : State, s.host.queue = [] → step s = .next { s with rsp := none }

/-! ### Reset -/

/-- R19: the state after reset. -/
def Obligations.ResetValuesAreThoseGiven : Prop :=
  State.reset.addr = 0x0000 ∧ State.reset.sum = 0x00 ∧ State.reset.rsp = none ∧ State.reset.host.sink = [] ∧
  Config.defaultOrigin = 0x0000 ∧ Config.defaultChunkSize = 16

/-- R95, R86, R88 (the spec's D7, D11): a step with reset asserted executes no command, whatever word is presented with it,
returns no response, leaves `ADDR = 0x0000`, `SUM = 0x00`, and touches of the host's things only its position in its
sequence; and from every state, a faulted one too, reset can be asserted (how the host's plan goes on is log entry 7). -/
def Obligations.ResetWinsOverTheCommand : Prop :=
  (∀ (s : State) (ignored : Option Presented) (q : List Action), s.host.queue = .reset ignored :: q →
    ∃ t, step s = .next t ∧ t.addr = 0x0000 ∧ t.sum = 0x00 ∧ t.rsp = none ∧ t.host = { s.host with queue := q }) ∧
  (∀ (s : State) (ignored : Option Presented) (plan : List Action),
    ∃ t, step (s.assertReset ignored plan) = .next t ∧ t.addr = 0x0000 ∧ t.sum = 0x00 ∧ t.rsp = none ∧
      t.host = { s.host with queue := plan })

/-! ### Faults -/

/-- R80, R86 (the spec's D11): a step faults in exactly three cases, with the recorded value and the code of each. -/
def Obligations.FaultsHaveExactlyThreeCauses : Prop :=
  ∀ (s : State) (f : Fault), step s = .fault f ↔
    (∃ bytes origin chunk q, s.host.queue = .encode bytes origin chunk :: q ∧
      chunk.getD 16 = 0 ∧ f = .configurationError 0 ∧ f.code = 1) ∨
    (∃ a data q, s.host.queue = .encData a data :: q ∧
      (data.length = 0 ∨ 255 < data.length) ∧ f = .preconditionViolation data.length ∧ f.code = 2) ∨
    (∃ p x q e, s.host.queue = .present p x :: q ∧
      decode (p.cmd s.host) = .error e ∧ f = .illegalCommand (p.cmd s.host) ∧ f.code = 3)

/-- No step of any state is refused: every command and every host action has a meaning. -/
def Obligations.NoStepIsRefused : Prop := ∀ (s : State) (r : Refusal), step s ≠ .refused r

/-- R81: `ENCODE` with `chunk_size = 0` raises `ConfigurationError(0)` as its first action; with every other `chunk_size`,
given or omitted, and every origin, it goes on, and that first action has issued no command and emitted nothing. -/
def Obligations.ZeroChunkSizeIsConfigurationError : Prop :=
  ∀ (s : State) (bytes : List Byte) (origin : Option Word) (q : List Action),
    (s.host.queue = .encode bytes origin (some 0) :: q → step s = .fault (.configurationError 0)) ∧
    (∀ chunk : Option Byte, s.host.queue = .encode bytes origin chunk :: q → chunk ≠ some 0 →
      ∃ t, step s = .next t ∧ t.addr = s.addr ∧ t.sum = s.sum ∧ t.rsp = none ∧ t.host.sink = s.host.sink)

/-- R82 (the spec's D18): `ENC.DATA` with no data or more than 255 bytes raises `PreconditionViolation(k)` and nothing else
happens; with 1 to 255 bytes it goes on. -/
def Obligations.EncDataRefusesBadLengths : Prop :=
  ∀ (s : State) (a : AddrRef) (data : List Byte) (q : List Action), s.host.queue = .encData a data :: q →
    ((data.length = 0 ∨ 255 < data.length) → step s = .fault (.preconditionViolation data.length)) ∧
    (1 ≤ data.length → data.length ≤ 255 →
      ∃ t, step s = .next t ∧ t.addr = s.addr ∧ t.sum = s.sum ∧ t.rsp = none ∧ t.host.sink = s.host.sink)

/-! ### Rules of the whole machine -/

/-- R11, R12, R8: in any step, `ADDR` changes only by `AT.LOAD`, `AT.ADV` or reset, `SUM` only by `CS.CLR`, `CS.ADD` or reset,
and a step that is not a reset writes at most one of the two. -/
def Obligations.OnlyTheirCommandsAndResetWriteRegisters : Prop :=
  ∀ s t : State, step s = .next t →
    (t.addr ≠ s.addr → NextIsReset s ∨ (∃ a, NextCommand s (.atLoad a)) ∨ ∃ n, NextCommand s (.atAdv n)) ∧
    (t.sum ≠ s.sum → NextIsReset s ∨ NextCommand s .csClr ∨ ∃ b, NextCommand s (.csAdd b)) ∧
    (¬ NextIsReset s → t.addr = s.addr ∨ t.sum = s.sum)

/-- R34, R17: a step returns a response exactly when it executes `AT.CUR`, `CS.NEG` or `HX.BYTE`; in every other step there
is none, so no response outlives its step. -/
def Obligations.ResponsesExistOnlyInReadSteps : Prop :=
  ∀ s t : State, step s = .next t →
    (t.rsp ≠ none ↔ NextCommand s .atCur ∨ NextCommand s .csNeg ∨ ∃ b, NextCommand s (.hxByte b))

/-- R22, R8: the line-sink is append-only, at most one character a step, and only an `emit` appends. -/
def Obligations.LineSinkIsAppendOnly : Prop :=
  ∀ s t : State, step s = .next t →
    (t.host.sink = s.host.sink ∨ ∃ c, t.host.sink = s.host.sink ++ [c]) ∧
    (s.emitsChar = false → t.host.sink = s.host.sink)

/-- R39 (the spec's D13): every step keeps the invariant that only the 18 codes stand in the line-sink, that the host holds
hexadecimal digits as characters, and that it plans to emit nothing but those and the 18 codes; the expansions plan
nothing else. That a host of the spec's sequences plans no other emit is log entry 6 (DEDUCED); the codes are
the spec's import G1 (log entry 12). -/
def Obligations.StepKeepsOnlySinkCodes : Prop :=
  ∀ s t : State, OnlySinkCodes s → step s = .next t → OnlySinkCodes t

/-- The invariant of R39 holds at reset, where the host holds no character and plans nothing (log entry 3). -/
def Obligations.ResetHoldsOnlySinkCodes : Prop := OnlySinkCodes State.reset

/-- R17: the block holds nothing but `ADDR` and `SUM`: from states that agree on them, every sequence of commands gives the
same responses and ends with the same registers. -/
def Obligations.EqualRegistersAreIndistinguishable : Prop :=
  ∀ (is : List Instr) (s s' : State), s.addr = s'.addr → s.sum = s'.sum →
    responses is s = responses is s' ∧
    ∃ t t', execList is s = .next t ∧ execList is s' = .next t' ∧ t.addr = t'.addr ∧ t.sum = t'.sum

/-- R91, R12: the whole state of the block is observable through `AT.CUR` and `CS.NEG`. -/
def Obligations.RegistersAreObservable : Prop :=
  ∀ s s' : State, responses [.atCur, .csNeg] s = responses [.atCur, .csNeg] s' → s.addr = s'.addr ∧ s.sum = s'.sum

/-- R28 item b: two commands of different parts of the block commute: same registers, same response of each, either way. -/
def Obligations.CommandsOfDifferentPartsCommute : Prop :=
  ∀ (i j : Instr) (s : State), partOf i ≠ partOf j →
    ∃ t u ri rj, execList [i, j] s = .next t ∧ execList [j, i] s = .next u ∧
      t.addr = u.addr ∧ t.sum = u.sum ∧ t.host = u.host ∧
      responses [i, j] s = [ri, rj] ∧ responses [j, i] s = [rj, ri]

/-- R28 item a: a read returns the value of the latest write, whatever commands that do not write that register come
between: for `ADDR` (written by `AT.LOAD` or `AT.ADV`) and `AT.CUR`, and for `SUM` (written by `CS.CLR` or `CS.ADD`) and
`CS.NEG`; with no write at all it returns the value the register had. -/
def Obligations.ReadsReturnTheLatestWrite : Prop :=
  (∀ (is : List Instr) (s : State), (∀ i ∈ is, (∀ b, i ≠ .atLoad b) ∧ ∀ n, i ≠ .atAdv n) →
    (∀ a, (responses (.atLoad a :: (is ++ [.atCur])) s).getLast? = some (some a)) ∧
    (∀ n, (responses (.atAdv n :: (is ++ [.atCur])) s).getLast? = some (some (wrapAddAddr s.addr n))) ∧
    (responses (is ++ [.atCur]) s).getLast? = some (some s.addr)) ∧
  (∀ (is : List Instr) (s : State), (∀ i ∈ is, i ≠ .csClr ∧ ∀ b, i ≠ .csAdd b) →
    (responses (.csClr :: (is ++ [.csNeg])) s).getLast? = some (some 0x0000) ∧
    (∀ b, (responses (.csAdd b :: (is ++ [.csNeg])) s).getLast? =
      some (some (zeroExtend16 (negateSum (wrapAddSum s.sum b))))) ∧
    (responses (is ++ [.csNeg]) s).getLast? = some (some (zeroExtend16 (negateSum s.sum))))

/-- R14, R52: the carry out of the address adder is what the sum lacks, it is recorded nowhere, and a host sees a wrap only by
comparing the address before and after. -/
def Obligations.AddressWrapIsSeenOnlyByComparing : Prop :=
  ∀ (n : Word) (s : State), ∃ t, exec (.atAdv n) s = .next t ∧
    t.addr.toNat + (if addrCarryOut s.addr n then 65536 else 0) = s.addr.toNat + n.toNat ∧
    (addrCarryOut s.addr n = true ↔ t.addr.toNat < s.addr.toNat) ∧
    t.sum = s.sum ∧ t.rsp = none ∧ t.host = s.host

/-! ### Laws of the arithmetic -/

/-- R53 items 1 to 4 (of item 4, the clause on commands). -/
def Obligations.AdvancesCompose : Prop :=
  (∀ (n m : Word) (s : State),
    execList [.atAdv n, .atAdv m] s = execList [.atAdv (advanceOperand (n.toNat + m.toNat))] s) ∧
  (∀ s : State, ∃ t, exec (.atAdv 0) s = .next t ∧ t.addr = s.addr) ∧
  (∀ (n : Word) (s : State), ∃ t, execList [.atAdv n, .atAdv (advanceOperand (65536 - n.toNat))] s = .next t ∧
    t.addr = s.addr) ∧
  (∀ (o : Word) (ns : List Word) (s : State), ∃ t, execList (.atLoad o :: ns.map Instr.atAdv) s = .next t ∧
    t.addr.toNat = (o.toNat + (ns.map BitVec.toNat).sum) % 65536 ∧ t.sum = s.sum)

/-- R58 items 1 to 3: after `CS.CLR` and any adds, `SUM` is the sum of the bytes reduced once at the end, for every order. -/
def Obligations.AddsSumModulo256InAnyOrder : Prop :=
  (∀ (f : List Byte) (s : State), ∃ t, execList (.csClr :: f.map Instr.csAdd) s = .next t ∧
    t.sum.toNat = (f.map BitVec.toNat).sum % 256 ∧ t.addr = s.addr) ∧
  (∀ (f g : List Byte) (s : State), f.Perm g →
    execList (.csClr :: f.map Instr.csAdd) s = execList (.csClr :: g.map Instr.csAdd) s)

/-- R58 items 4 to 6: the checksum is the only byte that brings the sum to zero; negation is an involution with the two fixed
points `0x00` and `0x80`; one changed addend changes the checksum, two opposite changes do not. -/
def Obligations.ChecksumIsTheOnlyBalancingByte : Prop :=
  (∀ (s : State) (c : Byte), (∃ t r, exec .csNeg s = .next t ∧ t.rsp = some r ∧ lowByte r = c) ↔
    (s.sum.toNat + c.toNat) % 256 = 0) ∧
  (∀ x : Byte, negateSum (negateSum x) = x) ∧
  (∀ x : Byte, negateSum x = x ↔ x = 0x00 ∨ x = 0x80) ∧
  (∀ (pre post : List Byte) (b b' : Byte), b ≠ b' →
    negateSum (sumBytes (pre ++ b :: post)) ≠ negateSum (sumBytes (pre ++ b' :: post))) ∧
  (∀ (pre mid post : List Byte) (b b' d : Byte),
    sumBytes (pre ++ b :: (mid ++ b' :: post)) = sumBytes (pre ++ (b + d) :: (mid ++ (b' - d) :: post)))

/-- R62: distinct bytes give distinct responses; the inverse of the rule reads a byte back from its two characters; both
characters are among the 16 codes, and neither `:` nor the line end is. The codes are the spec's import G1 (log entry 12). -/
def Obligations.HexPairsDetermineTheirByte : Prop :=
  (∀ (b b' : Byte) (s s' t t' : State), exec (.hxByte b) s = .next t → exec (.hxByte b') s' = .next t' →
    t.rsp = t'.rsp → b = b') ∧
  (∀ b : Byte, unhexPair (hexchar (highNibble b)) (hexchar (lowNibble b)) = some b) ∧
  (∀ b : Byte, ∀ c ∈ hexPair b, c ∈ hexCodes) ∧
  colonChar ∉ hexCodes ∧ newlineChar ∉ hexCodes

/-- R63: the four digits of an address are `HX.BYTE a[15:8]` and then `HX.BYTE a[7:0]`, most significant digit first. -/
def Obligations.AddressIsFourDigits : Prop :=
  ∀ (a : Word) (s : State), responses [.hxByte (a.extractLsb' 8 8), .hxByte (a.extractLsb' 0 8)] s =
    [some (concatBytes (hexchar (a.extractLsb' 12 4)) (hexchar (a.extractLsb' 8 4))),
     some (concatBytes (hexchar (a.extractLsb' 4 4)) (hexchar (a.extractLsb' 0 4)))]

/-! ### Hazards (the block knows nothing of records) -/

/-- R99: `CS.NEG` does not clear the sum: without a `CS.CLR` the next checksum is that of the old sum plus the new bytes,
which is wrong exactly when the old sum is not zero. -/
def Obligations.MissingClearSpoilsTheNextChecksum : Prop :=
  ∀ (f : List Byte) (s : State),
    (responses (.csNeg :: (f.map Instr.csAdd ++ [.csNeg])) s).getLast? =
      some (some (zeroExtend16 (negateSum (wrapAddSum s.sum (sumBytes f))))) ∧
    (negateSum (wrapAddSum s.sum (sumBytes f)) = negateSum (sumBytes f) ↔ s.sum = 0x00)

/-- R100, R101: an address read before the advance is the chunk's own; read after it, it is the next chunk's; and an advance
issued twice counts twice. -/
def Obligations.AddressIsReadBeforeTheAdvance : Prop :=
  ∀ (n : Word) (s : State),
    responses [.atCur, .atAdv n] s = [some s.addr, none] ∧
    responses [.atAdv n, .atCur] s = [none, some (s.addr + n)] ∧
    responses [.atAdv n, .atAdv n, .atCur] s = [none, none, some (s.addr + n + n)]

/-! ### The record line -/

/-- R37: the positions of the record line, for a record with any data. -/
def Obligations.RecordLineLayout : Prop :=
  ∀ (r : Record),
    r.line.take 9 = colonChar ::
      (hexPair r.byteCount ++ hexPair (highByte r.address) ++ hexPair (lowByte r.address) ++ hexPair r.recordType) ∧
    (∀ (i : Nat) (d : Byte), r.data[i]? = some d → (r.line.drop (9 + 2 * i)).take 2 = hexPair d) ∧
    (r.line.drop (9 + 2 * r.data.length)).take 2 = hexPair r.checksum ∧
    r.line.drop (11 + 2 * r.data.length) = [newlineChar]

/-- R40: the length of a line and of the whole output. -/
def Obligations.OutputLengths : Prop :=
  (∀ r : Record, r.line.length = 12 + 2 * r.data.length) ∧
  (∀ (bytes : List Byte) (origin : Word) (c : Nat), 1 ≤ c → c ≤ 255 →
    (encodeText bytes origin c).length =
      2 * bytes.length + 12 * (bytes.length / c + if bytes.length % c = 0 then 0 else 1) + 12)

/-- R41: the end-of-file line as codes (the codes are the spec's import G1, log entry 12). -/
def Obligations.EofLineIsConstant : Prop :=
  eofRecord.checksum = 0xFF ∧
  eofRecord.line = [0x3A, 0x30, 0x30, 0x30, 0x30, 0x30, 0x30, 0x30, 0x31, 0x46, 0x46, 0x0A]

/-- R69: the chunks of a byte sequence for a chunk size in `1..255`. -/
def Obligations.ChunksPartitionTheInput : Prop :=
  ∀ (bytes : List Byte) (c : Nat), 1 ≤ c → c ≤ 255 →
    (chunks c bytes).length = bytes.length / c + (if bytes.length % c = 0 then 0 else 1) ∧
    (chunks c bytes).flatten = bytes ∧
    (∀ ch ∈ chunks c bytes, 1 ≤ ch.length ∧ ch.length ≤ c) ∧
    (∀ (j : Nat) (ch : List Byte), (chunks c bytes)[j]? = some ch →
      ch = (bytes.drop (j * c)).take (min ((j + 1) * c) bytes.length - j * c) ∧
      (j + 1 < (chunks c bytes).length → ch.length = c) ∧
      (j + 1 = (chunks c bytes).length → ch.length = if bytes.length % c = 0 then c else bytes.length % c))

/-- R59: every record of an encode, with its checksum, sums to 0 modulo 256. -/
def Obligations.EveryRecordSumsToZero : Prop :=
  ∀ (bytes : List Byte) (origin : Word) (c : Nat) (r : Record), r ∈ encodeRecords bytes origin c →
    ((r.fields ++ [r.checksum]).map BitVec.toNat).sum % 256 = 0

/-- R71: the six properties the document requires of the output, of the records whose lines `ENCODE` emits
(`EncodeEmitsTheWholeOutput`). R71 prints the end-of-file line in characters; its numeric codes here are the spec's import
G1, log entry 12 (PRESUMED). -/
def Obligations.EncodeHasTheRequiredProperties : Prop :=
  (∀ (bytes : List Byte) (origin : Word) (c : Nat), 1 ≤ c → c ≤ 255 →
    (dataRecords bytes origin c).flatMap Record.data = bytes ∧
    (∀ r ∈ encodeRecords bytes origin c, ((r.fields ++ [r.checksum]).map BitVec.toNat).sum % 256 = 0) ∧
    (∀ r ∈ dataRecords bytes origin c,
      r.recordType = 0x00 ∧ r.byteCount.toNat = r.data.length ∧ 1 ≤ r.data.length) ∧
    (encodeRecords bytes origin c).getLast? = some eofRecord ∧
    (encodeRecords bytes origin c).countP (fun r => r.recordType == 0x01) = 1 ∧
    eofRecord.line = [0x3A, 0x30, 0x30, 0x30, 0x30, 0x30, 0x30, 0x30, 0x31, 0x46, 0x46, 0x0A]) ∧
  (∀ bytes : List Byte, bytes.length = 32 →
    (dataRecords bytes 0xFFF0 16).map Record.address = [0xFFF0, 0x0000]) ∧
  (∀ (origin : Word) (c : Nat), 1 ≤ c → c ≤ 255 → encodeText [] origin c = eofRecord.line) ∧
  (∀ bytes : List Byte, bytes.length = 5 →
    (dataRecords bytes 0x0000 1).map (fun r => (r.byteCount, r.address)) =
      [(1, 0), (1, 1), (1, 2), (1, 3), (1, 4)])

/-- R22, R21, R70: byte `j` of the input stands in data record `j / c` at place `j % c`, so it is destined for target address
`(origin + j) mod 65536`; a record is never split at the wrap (R24). -/
def Obligations.InputByteReachesItsTargetAddress : Prop :=
  ∀ (bytes : List Byte) (origin : Word) (c j : Nat) (b : Byte), 1 ≤ c → c ≤ 255 → bytes[j]? = some b →
    ∃ r, (dataRecords bytes origin c)[j / c]? = some r ∧ r.data[j % c]? = some b ∧
      r.address.toNat = (origin.toNat + (j / c) * c) % 65536 ∧
      (targetAddress r.address (j % c)).toNat = (origin.toNat + j) % 65536

/-! ### The host's sequences -/

/-- R65: `HEX2 b` is one command and two emits; it appends the two digits of `b` and leaves both registers; of what the host
holds it rebinds its own `(h, l)`. -/
def Obligations.Hex2EmitsTheTwoDigits : Prop :=
  ∀ (s : State) (b : ByteRef) (q : List Action), s.host.queue = .hex2 b :: q →
    ∃ t, RunsTo s t 1 2 ∧ t.addr = s.addr ∧ t.sum = s.sum ∧ t.rsp = none ∧
      t.host = { s.host with
        queue := q, sink := s.host.sink ++ hexPair (b.value s.host),
        chars := bindName ownName (hexchar (highNibble (b.value s.host)), hexchar (lowNibble (b.value s.host)))
          s.host.chars }

/-- R65, R98: `FIELD b` is two commands and two emits; the byte it prints is the byte it sums. -/
def Obligations.FieldSumsWhatItPrints : Prop :=
  ∀ (s : State) (b : ByteRef) (q : List Action), s.host.queue = .field b :: q →
    ∃ t, RunsTo s t 2 2 ∧ t.addr = s.addr ∧ t.sum = wrapAddSum s.sum (b.value s.host) ∧ t.rsp = none ∧
      t.host = { s.host with
        queue := q, sink := s.host.sink ++ hexPair (b.value s.host),
        chars := bindName ownName (hexchar (highNibble (b.value s.host)), hexchar (lowNibble (b.value s.host)))
          s.host.chars }

/-- R66: `ENC.DATA` with 1 to 255 bytes expands to the rule's sequence; from every state it runs
to its end in `2k + 11` commands and `2k + 12` emits, appends exactly the record's line, leaves `ADDR`, and leaves in
`SUM` the sum of the field list; outside the precondition it expands to nothing. Names of the host's own are kept. The
codes of `:` and the line end are the spec's import G1, log entry 12 (PRESUMED). -/
def Obligations.EncDataEmitsItsRecordLine : Prop :=
  ∀ (s : State) (a : AddrRef) (data : List Byte) (q : List Action), s.host.queue = .encData a data :: q →
    (1 ≤ data.length → data.length ≤ 255 →
      step s = .next { s with rsp := none, host := { s.host with
        queue := .emit (.lit 0x3A) :: .present (.instr .csClr) ownName ::
          .field (.lit (BitVec.ofNat 8 data.length)) :: .field a.hi :: .field a.lo :: .field (.lit 0x00) ::
          (data.map (fun d => .field (.lit d)) ++
            .present (.instr .csNeg) ownName :: .hex2 (.checksum ownName) :: .emit (.lit 0x0A) :: q) } } ∧
      ∃ t, RunsTo s t (2 * data.length + 11) (2 * data.length + 12) ∧
        t.addr = s.addr ∧
        t.sum.toNat = (data.length + (highByte (a.value s.host)).toNat + (lowByte (a.value s.host)).toNat +
          (data.map BitVec.toNat).sum) % 256 ∧
        t.host.queue = q ∧
        t.host.sink = s.host.sink ++ ([0x3A] ++ hexPair (BitVec.ofNat 8 data.length) ++
          hexPair (highByte (a.value s.host)) ++ hexPair (lowByte (a.value s.host)) ++ hexPair 0x00 ++
          data.flatMap hexPair ++ hexPair (negateSum t.sum) ++ [0x0A]) ∧
        t.host.addrs = s.host.addrs ∧ t.host.outputStart = s.host.outputStart ∧
        ∀ x, x ≠ ownName → t.host.checksumOf x = s.host.checksumOf x ∧ t.host.charsOf x = s.host.charsOf x) ∧
    ((data.length = 0 ∨ 255 < data.length) → step s = .fault (.preconditionViolation data.length))

/-- R68: `ENC.EOF` expands to the rule's sequence; from every state it runs to its end in 11 commands and 12 emits, appends the end-of-file line, the
same whatever `ADDR` is, leaves `ADDR`, and leaves `SUM = 0x01`. Names of the host's own are kept. R68 prints the line in
characters; its numeric codes here are the spec's import G1, log entry 12 (PRESUMED). -/
def Obligations.EncEofEmitsTheEofLine : Prop :=
  ∀ (s : State) (q : List Action), s.host.queue = .encEof :: q →
    step s = .next { s with rsp := none, host := { s.host with
      queue := .emit (.lit 0x3A) :: .present (.instr .csClr) ownName ::
        .field (.lit 0x00) :: .field (.lit 0x00) :: .field (.lit 0x00) :: .field (.lit 0x01) ::
        .present (.instr .csNeg) ownName :: .hex2 (.checksum ownName) :: .emit (.lit 0x0A) :: q } } ∧
    ∃ t, RunsTo s t 11 12 ∧ t.addr = s.addr ∧ t.sum = 0x01 ∧ t.host.queue = q ∧
      t.host.sink = s.host.sink ++ [0x3A, 0x30, 0x30, 0x30, 0x30, 0x30, 0x30, 0x30, 0x31, 0x46, 0x46, 0x0A] ∧
      t.host.addrs = s.host.addrs ∧ t.host.outputStart = s.host.outputStart ∧
      ∀ x, x ≠ ownName → t.host.checksumOf x = s.host.checksumOf x ∧ t.host.charsOf x = s.host.charsOf x

/-- R70: `ENCODE` with a `chunk_size` other than 0 (given, or 16 where omitted) and any origin (given, or 0 where
omitted) expands to the rule's sequence; from every state it runs to its end in `2N + 13m + 12` commands and `2N + 12m + 12` emits, `m = ceil(N / c)`; it appends
the lines of the data records, record `j` with the address, count and data of chunk `j`, and then the end-of-file line;
afterwards `ADDR = (origin + N) mod 65536`, `SUM = 0x01`.
With `chunk_size = 0` it raises `ConfigurationError`. That the host notes where the output begins (`t.host.output`) is log
entry 11 (DEDUCED, from R96 item 4); the codes of the lines are the spec's import G1, log entry 12 (PRESUMED). -/
def Obligations.EncodeEmitsTheWholeOutput : Prop :=
  ∀ (s : State) (bytes : List Byte) (origin : Option Word) (chunk : Option Byte) (q : List Action),
    s.host.queue = .encode bytes origin chunk :: q →
    (chunk.getD 16 ≠ 0 →
      (∃ u, step s = .next u ∧ u.addr = s.addr ∧ u.sum = s.sum ∧ u.host.sink = s.host.sink ∧
        u.host.queue = .present (.instr (.atLoad (origin.getD 0))) ownName ::
          ((chunks (chunk.getD 16).toNat bytes).flatMap (fun ch =>
            [.present (.instr .atCur) ownName, .encData (.held ownName) ch, .present (.atAdv ch.length) ownName]) ++
            .encEof :: q)) ∧
      (∀ (j : Nat) (ch : List Byte), (chunks (chunk.getD 16).toNat bytes)[j]? = some ch →
        ∃ r, (dataRecords bytes (origin.getD 0) (chunk.getD 16).toNat)[j]? = some r ∧
          r.address.toNat = ((origin.getD 0).toNat + j * (chunk.getD 16).toNat) % 65536 ∧
          r.byteCount.toNat = ch.length ∧ r.data = ch) ∧
      ∃ t m,
        m = bytes.length / (chunk.getD 16).toNat + (if bytes.length % (chunk.getD 16).toNat = 0 then 0 else 1) ∧
        RunsTo s t (2 * bytes.length + 13 * m + 12) (2 * bytes.length + 12 * m + 12) ∧
        t.host.queue = q ∧
        t.host.sink = s.host.sink ++ encodeText bytes (origin.getD 0) (chunk.getD 16).toNat ∧
        t.host.output = encodeText bytes (origin.getD 0) (chunk.getD 16).toNat ∧
        t.addr.toNat = ((origin.getD 0).toNat + bytes.length) % 65536 ∧
        t.sum = 0x01) ∧
    (chunk.getD 16 = 0 → step s = .fault (.configurationError 0))

/-- R84, R70, R107: an `ENCODE` with a legal `chunk_size`, alone in the host's sequence, never faults and is never refused,
from any state and for any origin and input, however far the addresses wrap. -/
def Obligations.EncodeNeverFaults : Prop :=
  ∀ (s : State) (bytes : List Byte) (origin : Option Word) (chunk : Option Byte),
    s.host.queue = [.encode bytes origin chunk] → chunk ≠ some 0 → SafeFrom s

/-- R72, R96: the output of `ENCODE` is a function of its operands alone: two states that may differ in everything else, one
just reset or not, give the same characters and the same final registers. -/
def Obligations.EncodeIsAPureFunctionOfItsOperands : Prop :=
  ∀ (s s' : State) (bytes : List Byte) (origin : Option Word) (chunk : Option Byte) (q q' : List Action),
    s.host.queue = .encode bytes origin chunk :: q → s'.host.queue = .encode bytes origin chunk :: q' →
    chunk ≠ some 0 →
    ∃ t t' c e, RunsTo s t c e ∧ RunsTo s' t' c e ∧ t.host.queue = q ∧ t'.host.queue = q' ∧
      t.host.output = t'.host.output ∧ t.addr = t'.addr ∧ t.sum = t'.sum

/-- R67: every order of a data record's commands that keeps the emits in the order written (a), the clear before the adds
(b), the negation after them (c) and each add once (d), every response used only after its command, gives the same
characters and the same final registers as `ENC.DATA`; any number of `HX.BYTE` may come before their emits. The pairs
are held under different names (`recordActions`). -/
def Obligations.RecordCommandsMayBeReordered : Prop :=
  ∀ (s : State) (a : AddrRef) (data : List Byte) (actions q : List Action),
    1 ≤ data.length → data.length ≤ 255 → AllowedOrder (dataFields a data) actions →
    s.host.queue = actions ++ q →
    ∃ t, RunsTo s t (2 * data.length + 11) (2 * data.length + 12) ∧
      t.addr = s.addr ∧
      t.sum = sumBytes (fieldList (BitVec.ofNat 8 data.length) (a.value s.host) 0x00 data) ∧
      t.host.queue = q ∧ t.host.sink = s.host.sink ++ (dataRecord (a.value s.host) data).line
end

