-- ==== Sys2Proof/Laws/State.lean ====
section
/-! SUPPORT. One lemma per field per update of the state, true by rfl: later proofs rewrite with these and never unfold a
record update. -/

namespace Sys2Proof.Machine

/-! ### `writeAddr` -/

@[simp] theorem State.writeAddr_addr (s : State) (v : Word) : (s.writeAddr v).addr = v := rfl
@[simp] theorem State.writeAddr_sum (s : State) (v : Word) : (s.writeAddr v).sum = s.sum := rfl
@[simp] theorem State.writeAddr_rsp (s : State) (v : Word) : (s.writeAddr v).rsp = s.rsp := rfl
@[simp] theorem State.writeAddr_host (s : State) (v : Word) : (s.writeAddr v).host = s.host := rfl

/-! ### `writeSum` -/

@[simp] theorem State.writeSum_addr (s : State) (v : Byte) : (s.writeSum v).addr = s.addr := rfl
@[simp] theorem State.writeSum_sum (s : State) (v : Byte) : (s.writeSum v).sum = v := rfl
@[simp] theorem State.writeSum_rsp (s : State) (v : Byte) : (s.writeSum v).rsp = s.rsp := rfl
@[simp] theorem State.writeSum_host (s : State) (v : Byte) : (s.writeSum v).host = s.host := rfl

/-! ### `respond` -/

@[simp] theorem State.respond_addr (s : State) (v : Word) : (s.respond v).addr = s.addr := rfl
@[simp] theorem State.respond_sum (s : State) (v : Word) : (s.respond v).sum = s.sum := rfl
@[simp] theorem State.respond_rsp (s : State) (v : Word) : (s.respond v).rsp = some v := rfl
@[simp] theorem State.respond_host (s : State) (v : Word) : (s.respond v).host = s.host := rfl

/-! ### `noResponse` -/

@[simp] theorem State.noResponse_addr (s : State) : s.noResponse.addr = s.addr := rfl
@[simp] theorem State.noResponse_sum (s : State) : s.noResponse.sum = s.sum := rfl
@[simp] theorem State.noResponse_rsp (s : State) : s.noResponse.rsp = none := rfl
@[simp] theorem State.noResponse_host (s : State) : s.noResponse.host = s.host := rfl

/-! ### `resetBlock` -/

@[simp] theorem State.resetBlock_addr (s : State) : s.resetBlock.addr = 0 := rfl
@[simp] theorem State.resetBlock_sum (s : State) : s.resetBlock.sum = 0 := rfl
@[simp] theorem State.resetBlock_rsp (s : State) : s.resetBlock.rsp = none := rfl
@[simp] theorem State.resetBlock_host (s : State) : s.resetBlock.host = s.host := rfl

@[simp] theorem State.readAddr_eq (s : State) : s.readAddr = s.addr := rfl
@[simp] theorem State.readSum_eq (s : State) : s.readSum = s.sum := rfl

/-! ### `withQueue` -/

@[simp] theorem State.withQueue_addr (s : State) (q : List Action) : (s.withQueue q).addr = s.addr := rfl
@[simp] theorem State.withQueue_sum (s : State) (q : List Action) : (s.withQueue q).sum = s.sum := rfl
@[simp] theorem State.withQueue_rsp (s : State) (q : List Action) : (s.withQueue q).rsp = s.rsp := rfl
@[simp] theorem State.withQueue_host_queue (s : State) (q : List Action) : (s.withQueue q).host.queue = q := rfl
@[simp] theorem State.withQueue_host_addrs (s : State) (q : List Action) : (s.withQueue q).host.addrs = s.host.addrs := rfl
@[simp] theorem State.withQueue_host_checksums (s : State) (q : List Action) : (s.withQueue q).host.checksums = s.host.checksums := rfl
@[simp] theorem State.withQueue_host_chars (s : State) (q : List Action) : (s.withQueue q).host.chars = s.host.chars := rfl
@[simp] theorem State.withQueue_host_sink (s : State) (q : List Action) : (s.withQueue q).host.sink = s.host.sink := rfl
@[simp] theorem State.withQueue_host_outputStart (s : State) (q : List Action) : (s.withQueue q).host.outputStart = s.host.outputStart := rfl

/-! ### `holdAddr` -/

@[simp] theorem State.holdAddr_addr (s : State) (x : HostName) (r : Word) : (s.holdAddr x r).addr = s.addr := rfl
@[simp] theorem State.holdAddr_sum (s : State) (x : HostName) (r : Word) : (s.holdAddr x r).sum = s.sum := rfl
@[simp] theorem State.holdAddr_rsp (s : State) (x : HostName) (r : Word) : (s.holdAddr x r).rsp = s.rsp := rfl
@[simp] theorem State.holdAddr_host_queue (s : State) (x : HostName) (r : Word) : (s.holdAddr x r).host.queue = s.host.queue := rfl
@[simp] theorem State.holdAddr_host_addrs (s : State) (x : HostName) (r : Word) : (s.holdAddr x r).host.addrs = bindName x r s.host.addrs := rfl
@[simp] theorem State.holdAddr_host_checksums (s : State) (x : HostName) (r : Word) : (s.holdAddr x r).host.checksums = s.host.checksums := rfl
@[simp] theorem State.holdAddr_host_chars (s : State) (x : HostName) (r : Word) : (s.holdAddr x r).host.chars = s.host.chars := rfl
@[simp] theorem State.holdAddr_host_sink (s : State) (x : HostName) (r : Word) : (s.holdAddr x r).host.sink = s.host.sink := rfl
@[simp] theorem State.holdAddr_host_outputStart (s : State) (x : HostName) (r : Word) : (s.holdAddr x r).host.outputStart = s.host.outputStart := rfl

/-! ### `holdChecksum` -/

@[simp] theorem State.holdChecksum_addr (s : State) (x : HostName) (r : Word) : (s.holdChecksum x r).addr = s.addr := rfl
@[simp] theorem State.holdChecksum_sum (s : State) (x : HostName) (r : Word) : (s.holdChecksum x r).sum = s.sum := rfl
@[simp] theorem State.holdChecksum_rsp (s : State) (x : HostName) (r : Word) : (s.holdChecksum x r).rsp = s.rsp := rfl
@[simp] theorem State.holdChecksum_host_queue (s : State) (x : HostName) (r : Word) : (s.holdChecksum x r).host.queue = s.host.queue := rfl
@[simp] theorem State.holdChecksum_host_addrs (s : State) (x : HostName) (r : Word) : (s.holdChecksum x r).host.addrs = s.host.addrs := rfl
@[simp] theorem State.holdChecksum_host_checksums (s : State) (x : HostName) (r : Word) : (s.holdChecksum x r).host.checksums = bindName x (lowByte r) s.host.checksums := rfl
@[simp] theorem State.holdChecksum_host_chars (s : State) (x : HostName) (r : Word) : (s.holdChecksum x r).host.chars = s.host.chars := rfl
@[simp] theorem State.holdChecksum_host_sink (s : State) (x : HostName) (r : Word) : (s.holdChecksum x r).host.sink = s.host.sink := rfl
@[simp] theorem State.holdChecksum_host_outputStart (s : State) (x : HostName) (r : Word) : (s.holdChecksum x r).host.outputStart = s.host.outputStart := rfl

/-! ### `holdChars` -/

@[simp] theorem State.holdChars_addr (s : State) (x : HostName) (r : Word) : (s.holdChars x r).addr = s.addr := rfl
@[simp] theorem State.holdChars_sum (s : State) (x : HostName) (r : Word) : (s.holdChars x r).sum = s.sum := rfl
@[simp] theorem State.holdChars_rsp (s : State) (x : HostName) (r : Word) : (s.holdChars x r).rsp = s.rsp := rfl
@[simp] theorem State.holdChars_host_queue (s : State) (x : HostName) (r : Word) : (s.holdChars x r).host.queue = s.host.queue := rfl
@[simp] theorem State.holdChars_host_addrs (s : State) (x : HostName) (r : Word) : (s.holdChars x r).host.addrs = s.host.addrs := rfl
@[simp] theorem State.holdChars_host_checksums (s : State) (x : HostName) (r : Word) : (s.holdChars x r).host.checksums = s.host.checksums := rfl
@[simp] theorem State.holdChars_host_chars (s : State) (x : HostName) (r : Word) : (s.holdChars x r).host.chars = bindName x (highByte r, lowByte r) s.host.chars := rfl
@[simp] theorem State.holdChars_host_sink (s : State) (x : HostName) (r : Word) : (s.holdChars x r).host.sink = s.host.sink := rfl
@[simp] theorem State.holdChars_host_outputStart (s : State) (x : HostName) (r : Word) : (s.holdChars x r).host.outputStart = s.host.outputStart := rfl

/-! ### `emitChar` -/

@[simp] theorem State.emitChar_addr (s : State) (c : Byte) : (s.emitChar c).addr = s.addr := rfl
@[simp] theorem State.emitChar_sum (s : State) (c : Byte) : (s.emitChar c).sum = s.sum := rfl
@[simp] theorem State.emitChar_rsp (s : State) (c : Byte) : (s.emitChar c).rsp = s.rsp := rfl
@[simp] theorem State.emitChar_host_queue (s : State) (c : Byte) : (s.emitChar c).host.queue = s.host.queue := rfl
@[simp] theorem State.emitChar_host_addrs (s : State) (c : Byte) : (s.emitChar c).host.addrs = s.host.addrs := rfl
@[simp] theorem State.emitChar_host_checksums (s : State) (c : Byte) : (s.emitChar c).host.checksums = s.host.checksums := rfl
@[simp] theorem State.emitChar_host_chars (s : State) (c : Byte) : (s.emitChar c).host.chars = s.host.chars := rfl
@[simp] theorem State.emitChar_host_sink (s : State) (c : Byte) : (s.emitChar c).host.sink = s.host.sink ++ [c] := rfl
@[simp] theorem State.emitChar_host_outputStart (s : State) (c : Byte) : (s.emitChar c).host.outputStart = s.host.outputStart := rfl

/-! ### `noteOutputStart` -/

@[simp] theorem State.noteOutputStart_addr (s : State) : s.noteOutputStart.addr = s.addr := rfl
@[simp] theorem State.noteOutputStart_sum (s : State) : s.noteOutputStart.sum = s.sum := rfl
@[simp] theorem State.noteOutputStart_rsp (s : State) : s.noteOutputStart.rsp = s.rsp := rfl
@[simp] theorem State.noteOutputStart_host_queue (s : State) : s.noteOutputStart.host.queue = s.host.queue := rfl
@[simp] theorem State.noteOutputStart_host_addrs (s : State) : s.noteOutputStart.host.addrs = s.host.addrs := rfl
@[simp] theorem State.noteOutputStart_host_checksums (s : State) : s.noteOutputStart.host.checksums = s.host.checksums := rfl
@[simp] theorem State.noteOutputStart_host_chars (s : State) : s.noteOutputStart.host.chars = s.host.chars := rfl
@[simp] theorem State.noteOutputStart_host_sink (s : State) : s.noteOutputStart.host.sink = s.host.sink := rfl
@[simp] theorem State.noteOutputStart_host_outputStart (s : State) : s.noteOutputStart.host.outputStart = s.host.sink.length := rfl

/-! ### `expandInto` -/

@[simp] theorem State.expandInto_addr (s : State) (q : List Action) : (s.expandInto q).addr = s.addr := rfl
@[simp] theorem State.expandInto_sum (s : State) (q : List Action) : (s.expandInto q).sum = s.sum := rfl
@[simp] theorem State.expandInto_rsp (s : State) (q : List Action) : (s.expandInto q).rsp = none := rfl
@[simp] theorem State.expandInto_host_queue (s : State) (q : List Action) : (s.expandInto q).host.queue = q ++ s.host.queue := rfl
@[simp] theorem State.expandInto_host_addrs (s : State) (q : List Action) : (s.expandInto q).host.addrs = s.host.addrs := rfl
@[simp] theorem State.expandInto_host_checksums (s : State) (q : List Action) : (s.expandInto q).host.checksums = s.host.checksums := rfl
@[simp] theorem State.expandInto_host_chars (s : State) (q : List Action) : (s.expandInto q).host.chars = s.host.chars := rfl
@[simp] theorem State.expandInto_host_sink (s : State) (q : List Action) : (s.expandInto q).host.sink = s.host.sink := rfl
@[simp] theorem State.expandInto_host_outputStart (s : State) (q : List Action) : (s.expandInto q).host.outputStart = s.host.outputStart := rfl

end Sys2Proof.Machine
end

