-- ==== Sys2Proof/Laws/Ops.lean ====
section
/-! SUPPORT. What each shared operation does, said once: the block's arithmetic as arithmetic on bit vectors and on
numbers, the slices, and the carries the adders drop. -/

namespace Sys2Proof.Machine

/-! ### The two adders and the negator -/

@[simp] theorem wrapAddAddr_eq (a n : Word) : wrapAddAddr a n = a + n := by
  apply BitVec.eq_of_toNat_eq
  simp [wrapAddAddr, Config.addrModulus, BitVec.toNat_add]

@[simp] theorem wrapAddSum_eq (s b : Byte) : wrapAddSum s b = s + b := by
  apply BitVec.eq_of_toNat_eq
  simp [wrapAddSum, Config.sumModulus, BitVec.toNat_add]

@[simp] theorem negateSum_eq (s : Byte) : negateSum s = -s := by
  have mask (x : Nat) : x &&& 0xFF = x % 256 := Nat.and_two_pow_sub_one_eq_mod x 8
  apply BitVec.eq_of_toNat_eq
  simp [negateSum, mask, BitVec.toNat_neg]

/-- What the address adder drops is exactly its carry (R14, R52). -/
theorem wrapAddAddr_add_carry (a n : Word) :
    (wrapAddAddr a n).toNat + (if addrCarryOut a n then Config.addrModulus else 0) = a.toNat + n.toNat := by
  have ha := a.isLt
  have hn := n.isLt
  by_cases h : Config.addrModulus ≤ a.toNat + n.toNat
    <;> simp [addrCarryOut, h, BitVec.toNat_add] <;> simp only [Config.addrModulus] at * <;> omega

/-- What the checksum adder drops is exactly its carry (R14, R56). -/
theorem wrapAddSum_add_carry (s b : Byte) :
    (wrapAddSum s b).toNat + (if sumCarryOut s b then Config.sumModulus else 0) = s.toNat + b.toNat := by
  have hs := s.isLt
  have hb := b.isLt
  by_cases h : Config.sumModulus ≤ s.toNat + b.toNat
    <;> simp [sumCarryOut, h, BitVec.toNat_add] <;> simp only [Config.sumModulus] at * <;> omega

theorem advanceOperand_toNat (n : Nat) : (advanceOperand n).toNat = n % 65536 := by
  simp [advanceOperand, Config.addrModulus]

/-! ### Slices and concatenation -/

theorem getLsbD_concatBytes (x y : Byte) (i : Nat) :
    (concatBytes x y).getLsbD i = if i < 8 then y.getLsbD i else x.getLsbD (i - 8) := by
  have h := BitVec.getLsbD_append (x := x) (y := y) (i := i)
  exact h.trans (by by_cases hi : i < 8 <;> simp [hi])

@[simp] theorem highByte_concatBytes (x y : Byte) : highByte (concatBytes x y) = x := by
  apply BitVec.eq_of_getLsbD_eq
  intro i hi
  simp [highByte, getLsbD_concatBytes, hi]

@[simp] theorem lowByte_concatBytes (x y : Byte) : lowByte (concatBytes x y) = y := by
  apply BitVec.eq_of_getLsbD_eq
  intro i hi
  simp [lowByte, getLsbD_concatBytes, hi]

@[simp] theorem lowByte_zeroExtend16 (b : Byte) : lowByte (zeroExtend16 b) = b := by
  apply BitVec.eq_of_getLsbD_eq
  intro i hi
  simp [lowByte, zeroExtend16, hi]
  intro h
  omega

/-! ### The sum of a list of bytes -/

@[simp] theorem sumBytes_nil : sumBytes [] = 0 := rfl

theorem foldl_wrapAddSum (bytes : List Byte) (s : Byte) : bytes.foldl wrapAddSum s = s + sumBytes bytes := by
  induction bytes generalizing s with
  | nil => simp
  | cons b bs ih =>
    have hb : sumBytes (b :: bs) = b + sumBytes bs := by
      show bs.foldl wrapAddSum (wrapAddSum 0 b) = _
      rw [ih]; simp
    rw [List.foldl_cons, ih, hb, wrapAddSum_eq, BitVec.add_assoc]

@[simp] theorem sumBytes_cons (b : Byte) (bs : List Byte) : sumBytes (b :: bs) = b + sumBytes bs := by
  show bs.foldl wrapAddSum (wrapAddSum 0 b) = _
  rw [foldl_wrapAddSum]; simp

@[simp] theorem sumBytes_append (xs ys : List Byte) : sumBytes (xs ++ ys) = sumBytes xs + sumBytes ys := by
  induction xs with
  | nil => simp
  | cons x xs ih => simp [ih, BitVec.add_assoc]

/-! ### The names of the host -/

/-- A name stands for what it was last bound to (R36). -/
@[simp] theorem readName_bindName_self {α : Type} (x : HostName) (v u : α) (held : List (HostName × α)) :
    readName x u (bindName x v held) = v := by
  simp [readName, bindName]

/-- Binding a name leaves every other name alone (R36). -/
theorem readName_bindName_of_ne {α : Type} {x y : HostName} (h : y ≠ x) (v u : α) (held : List (HostName × α)) :
    readName y u (bindName x v held) = readName y u held := by
  have hxy : (y == x) = false := beq_false_of_ne h
  have key : (held.filter (fun e => e.1 != x)).lookup y = held.lookup y := by
    induction held with
    | nil => rfl
    | cons e es ih =>
      obtain ⟨z, w⟩ := e
      by_cases hz : z = x
      · subst hz; simp [List.lookup_cons, hxy, ih]
      · by_cases hy : y = z
        · subst hy; simp [hz]
        · have hyz : (y == z) = false := beq_false_of_ne hy
          simp [hz, List.lookup_cons, hyz, ih]
  simp [readName, bindName, List.lookup_cons, hxy, key]

/-- What is held after a binding is the new value or was held before. -/
theorem mem_bindName {α : Type} {x : HostName} {v : α} {held : List (HostName × α)} {e : HostName × α}
    (h : e ∈ bindName x v held) : e = (x, v) ∨ e ∈ held := by
  rcases List.mem_cons.1 h with h | h
  · exact .inl h
  · exact .inr (List.mem_of_mem_filter h)

/-! ### What a name stands for after a response is taken -/

@[simp] theorem State.holdAddr_addrOf (s : State) (x : HostName) (r : Word) : (s.holdAddr x r).host.addrOf x = r :=
  readName_bindName_self ..

theorem State.holdAddr_addrOf_of_ne (s : State) {x y : HostName} (h : y ≠ x) (r : Word) :
    (s.holdAddr x r).host.addrOf y = s.host.addrOf y :=
  readName_bindName_of_ne h ..

@[simp] theorem State.holdChecksum_checksumOf (s : State) (x : HostName) (r : Word) :
    (s.holdChecksum x r).host.checksumOf x = lowByte r :=
  readName_bindName_self ..

theorem State.holdChecksum_checksumOf_of_ne (s : State) {x y : HostName} (h : y ≠ x) (r : Word) :
    (s.holdChecksum x r).host.checksumOf y = s.host.checksumOf y :=
  readName_bindName_of_ne h ..

@[simp] theorem State.holdChars_charsOf (s : State) (x : HostName) (r : Word) :
    (s.holdChars x r).host.charsOf x = (highByte r, lowByte r) :=
  readName_bindName_self ..

theorem State.holdChars_charsOf_of_ne (s : State) {x y : HostName} (h : y ≠ x) (r : Word) :
    (s.holdChars x r).host.charsOf y = s.host.charsOf y :=
  readName_bindName_of_ne h ..

/-! ### The operands of a host action -/

@[simp] theorem AddrRef.hi_value (a : AddrRef) (h : Sequencer) : a.hi.value h = highByte (a.value h) := by
  cases a <;> rfl

@[simp] theorem AddrRef.lo_value (a : AddrRef) (h : Sequencer) : a.lo.value h = lowByte (a.value h) := by
  cases a <;> rfl

theorem dataLengthOk_iff (data : List Byte) : dataLengthOk data = true ↔ 1 ≤ data.length ∧ data.length ≤ 255 := by
  rw [dataLengthOk, Bool.and_eq_true, decide_eq_true_iff, decide_eq_true_iff]
  exact Iff.rfl

theorem chunkSizeOk_iff (c : Byte) : chunkSizeOk c = true ↔ c ≠ 0 := by
  simp only [chunkSizeOk, decide_eq_true_eq, ne_eq, ← BitVec.toNat_inj, BitVec.ofNat_eq_ofNat, BitVec.toNat_ofNat]
  omega

/-! ### The fields of an encoded word -/

theorem getLsbD_encode (i : Instr) (k : Nat) :
    (encode i).getLsbD k = if k < 16 then i.arg.getLsbD k else i.opcode.getLsbD (k - 16) := by
  have h := BitVec.getLsbD_append (x := i.opcode) (y := i.arg) (i := k)
  exact h.trans (by by_cases hk : k < 16 <;> simp [hk])

@[simp] theorem opField_encode (i : Instr) : opField (encode i) = i.opcode := by
  apply BitVec.eq_of_getLsbD_eq
  intro k hk
  simp [opField, getLsbD_encode, hk]

@[simp] theorem argField_encode (i : Instr) : argField (encode i) = i.arg := by
  apply BitVec.eq_of_getLsbD_eq
  intro k hk
  simp [argField, getLsbD_encode, hk]

theorem encode_fields (w : Command) (i : Instr) (hop : opField w = i.opcode) (harg : argField w = i.arg) :
    w = encode i := by
  apply BitVec.eq_of_getLsbD_eq
  intro k hk
  by_cases h : k < 16
  · have := congrArg (fun v : Word => v.getLsbD k) harg
    simpa [getLsbD_encode, argField, h] using this
  · have := congrArg (fun v : Nibble => v.getLsbD (k - 16)) hop
    have h4 : k - 16 < 4 := by omega
    have h16 : 16 + (k - 16) = k := by omega
    simpa [getLsbD_encode, opField, h, h4, h16] using this

end Sys2Proof.Machine
end

