-- ==== Sys2Proof/Laws/PerInstr.lean ====
section
/-! SUPPORT. The family `TableRow`: every command's word, whatever its operand, lies in that command's own row of the
opcode map (spec/30_encoding.md R31). -/

namespace Sys2Proof.Laws.TableRow

/-- The word of `i` selects the row that R31 prints for `i`. -/
def Statement (i : Instr) : Prop := i.row.selectedBy (encode i) = true

/-- It is enough to compare the masked bits one by one: the low 16 come from `ARG`, the high 4 from `OP`. -/
theorem of_bits (i : Instr)
    (low : ∀ k, k < 16 → (i.arg.getLsbD k && i.row.mask.getLsbD k) = i.row.pattern.getLsbD k)
    (high : ∀ k, k < 4 → (i.opcode.getLsbD k && i.row.mask.getLsbD (k + 16)) = i.row.pattern.getLsbD (k + 16)) :
    Statement i := by
  rw [Statement, Row.selectedBy, beq_iff_eq]
  apply BitVec.eq_of_getLsbD_eq
  intro k hk
  rw [BitVec.getLsbD_and, Machine.getLsbD_encode]
  split
  · exact low k ‹_›
  · simpa [Nat.sub_add_cancel (Nat.le_of_not_lt ‹_›)] using high (k - 16) (by omega)

/-- Every bit of a byte operand's word above the byte is 0 (R32). -/
theorem byte_bits (b : Byte) (pattern : Command) (h : ∀ k, k < 16 → pattern.getLsbD k = false) (k : Nat)
    (hk : k < 16) :
    ((b.setWidth 16).getLsbD k && (0xFFF00 : Command).getLsbD k) = pattern.getLsbD k := by
  rw [h k hk]
  interval_cases k <;> simp

theorem atLoad (a : Word) : Statement (.atLoad a) :=
  of_bits _ (by intro k hk; interval_cases k <;> simp [Instr.row])
    (by simp only [Instr.row, Instr.opcode]; decide)

theorem atCur : Statement .atCur := by rfl

theorem atAdv (n : Word) : Statement (.atAdv n) :=
  of_bits _ (by intro k hk; interval_cases k <;> simp [Instr.row])
    (by simp only [Instr.row, Instr.opcode]; decide)

theorem csClr : Statement .csClr := by rfl

theorem csAdd (b : Byte) : Statement (.csAdd b) := of_bits _ (byte_bits b _ (by simp only [Instr.row]; decide))
    (by simp only [Instr.row, Instr.opcode]; decide)

theorem csNeg : Statement .csNeg := by rfl

theorem hxByte (b : Byte) : Statement (.hxByte b) := of_bits _ (byte_bits b _ (by simp only [Instr.row]; decide))
    (by simp only [Instr.row, Instr.opcode]; decide)

end Sys2Proof.Laws.TableRow
end

