-- ==== Sys2Proof/Laws/Step.lean ====
section
/-! SUPPORT. What a step can do, said once, and how runs compose. -/

namespace Sys2Proof.Machine

/-! ### The step -/

theorem step_nil (s : State) (h : s.host.queue = []) : step s = .next (idle s) := by
  simp [step, h]

theorem step_cons (s : State) (act : Action) (q : List Action) (h : s.host.queue = act :: q) :
    step s = perform act (s.withQueue q) := by
  simp [step, h]

/-- Every command answers a next state in every state: the block raises a fault for illegal words only (R50 to R61). -/
theorem exec_next (i : Instr) (s : State) : ∃ t, exec i s = .next t := by
  cases i <;> exact ⟨_, rfl⟩

/-- No command touches the host (R20, R22). -/
theorem exec_host {i : Instr} {s t : State} (h : exec i s = .next t) : t.host = s.host := by
  cases i <;> cases h <;> rfl

/-- What a command word does (R8, R83): either it is legal, and its command's next state is taken with the response, or
it is illegal and raises its fault. -/
theorem runCommand_cases (w : Command) (x : HostName) (s : State) :
    (∃ i t, decode w = .ok i ∧ exec i s = .next t ∧ runCommand w x s = .next (takeResponse i x t)) ∨
    (∃ e, decode w = .error e ∧ runCommand w x s = .fault (.illegalCommand w)) := by
  cases h : decode w with
  | ok i =>
    obtain ⟨t, ht⟩ := exec_next i s
    exact .inl ⟨i, t, rfl, ht, by simp [runCommand, h, runInstr, ht]⟩
  | error e => exact .inr ⟨e, rfl, by simp [runCommand, h, raise]⟩

/-- The host's taking of a response changes neither register nor response, and of the host only its names. -/
theorem takeResponse_block (i : Instr) (x : HostName) (s : State) :
    (takeResponse i x s).addr = s.addr ∧ (takeResponse i x s).sum = s.sum ∧ (takeResponse i x s).rsp = s.rsp := by
  rcases s with ⟨_, _, r, _⟩
  cases i <;> cases r <;> exact ⟨rfl, rfl, rfl⟩

theorem takeResponse_host (i : Instr) (x : HostName) (s : State) :
    (takeResponse i x s).host.queue = s.host.queue ∧ (takeResponse i x s).host.sink = s.host.sink ∧
      (takeResponse i x s).host.outputStart = s.host.outputStart := by
  rcases s with ⟨_, _, r, _⟩
  cases i <;> cases r <;> exact ⟨rfl, rfl, rfl⟩

/-! ### Runs -/

@[simp] theorem run_zero (s : State) : run 0 s = .next s := rfl

theorem run_succ {s t : State} (h : step s = .next t) (n : Nat) : run (n + 1) s = run n t := by
  simp [run, h]

theorem run_add {s t : State} {n : Nat} (m : Nat) (h : run n s = .next t) : run (n + m) s = run m t := by
  induction n generalizing s with
  | zero => cases h; simp
  | succ n ih =>
    rw [Nat.add_right_comm]
    cases hs : step s with
    | next u =>
      rw [run_succ hs] at h ⊢
      exact ih h
    | fault f => simp [run, hs] at h
    | refused r => simp [run, hs] at h

theorem countSteps_succ (p : State → Bool) {s t : State} (h : step s = .next t) (n : Nat) :
    countSteps p (n + 1) s = (if p s then 1 else 0) + countSteps p n t := by
  simp [countSteps, h]

theorem countSteps_add (p : State → Bool) {s t : State} {n : Nat} (m : Nat) (h : run n s = .next t) :
    countSteps p (n + m) s = countSteps p n s + countSteps p m t := by
  induction n generalizing s with
  | zero => cases h; simp [countSteps]
  | succ n ih =>
    rw [Nat.add_right_comm]
    cases hs : step s with
    | next u =>
      rw [run_succ hs] at h
      rw [countSteps_succ p hs, countSteps_succ p hs, ih h, Nat.add_assoc]
    | fault f => simp [run, hs] at h
    | refused r => simp [run, hs] at h

theorem RunsTo.refl (s : State) : RunsTo s s 0 0 := ⟨0, rfl, rfl, rfl⟩

theorem RunsTo.trans {s t u : State} {c c' e e' : Nat} (h : RunsTo s t c e) (h' : RunsTo t u c' e') :
    RunsTo s u (c + c') (e + e') := by
  obtain ⟨n, hn, hc, he⟩ := h
  obtain ⟨m, hm, hc', he'⟩ := h'
  refine ⟨n + m, ?_, ?_, ?_⟩
  · rw [run_add m hn, hm]
  · rw [countSteps_add _ m hn, hc, hc']
  · rw [countSteps_add _ m hn, he, he']

/-- One step is a run: what it counts is read off the front of the host's sequence. -/
theorem RunsTo.of_step {s t : State} (h : step s = .next t) :
    RunsTo s t (if s.presentsCommand then 1 else 0) (if s.emitsChar then 1 else 0) :=
  ⟨1, by simp [run, h], by simp [countSteps, h], by simp [countSteps, h]⟩

end Sys2Proof.Machine
end

