-- ==== Sys2Proof/Tests/Slice0.lean ====
section
/-! SUPPORT. The model's own tests. Expected values come from spec/95_test_vectors.md (V1 to V7, S2 as corrected by
spec/90_conflicts.md C1) and from the rules named, never from the model's own answers. After them, one witness for the
hypotheses of each statement in Certificates/Slice0/Obligations.lean that has any. -/

namespace Sys2Proof.Tests

open Sys2Proof.Machine

/-- A small state: the two registers and what the host does next. -/
def stateWith (a : Word) (m : Byte) (q : List Action) : State :=
  { addr := a, sum := m, rsp := none, host := { Sequencer.initial with queue := q } }

/-- The outcome is a next state with a given property. -/
def nextHas (o : Outcome) (p : State → Bool) : Bool :=
  match o with
  | .next t    => p t
  | .fault _   => false
  | .refused _ => false

/-- The outcome is a given fault. -/
def faultIs (o : Outcome) (f : Fault) : Bool :=
  match o with
  | .next _    => false
  | .fault g   => decide (g = f)
  | .refused _ => false

/-- `n` bytes of any one value; its length, for the tests at the bounds 255 and 256. -/
def bytes (n : Nat) : List Byte := List.replicate n 0

@[simp] theorem bytes_length (n : Nat) : (bytes n).length = n := List.length_replicate

theorem dataLengthOk_bytes (n : Nat) : dataLengthOk (bytes n) = (decide (1 ≤ n) && decide (n ≤ 255)) := by
  rw [dataLengthOk, bytes_length, Config.maxByteCount]

/-! ### WellFormed: one ill-formed term for each check -/

theorem test_wf_refuses_empty_data : (Action.encData (.held 0) []).WellFormed = false := by decide
theorem test_wf_refuses_256_bytes : (Action.encData (.held 0) (bytes 256)).WellFormed = false := by
  rw [Action.WellFormed, dataLengthOk_bytes]; decide
theorem test_wf_refuses_zero_chunk : (Action.encode [1] none (some 0)).WellFormed = false := by decide
theorem test_wf_accepts_bounds :
    (Action.encData (.held 0) [0]).WellFormed = true ∧ (Action.encData (.held 0) (bytes 255)).WellFormed = true ∧
    (Action.encode [] none none).WellFormed = true ∧ (Action.encode [] none (some 255)).WellFormed = true := by
  refine ⟨by decide, ?_, by decide, by decide⟩
  rw [Action.WellFormed, dataLengthOk_bytes]; decide

/-! ### Decoding (V1; the words are written from the patterns of R31) -/

theorem test_decode_at_load : decode 0b0001_1010000000000000 = .ok (.atLoad 0xA000) := by decide
theorem test_decode_at_cur : decode 0b0010_0000000000000000 = .ok .atCur := by decide
theorem test_decode_at_adv : decode 0b0011_0000000000010000 = .ok (.atAdv 0x0010) := by decide
theorem test_decode_cs_clr : decode 0b0100_0000000000000000 = .ok .csClr := by decide
theorem test_decode_cs_add : decode 0b0101_00000000_11111111 = .ok (.csAdd 0xFF) := by decide
theorem test_decode_cs_neg : decode 0b0110_0000000000000000 = .ok .csNeg := by decide
theorem test_decode_hx_byte : decode 0b0111_00000000_10100000 = .ok (.hxByte 0xA0) := by decide
theorem test_decode_illegal_opcodes :
    decode 0x00000 = .error (.unassignedOpcode 0x0) ∧ decode 0x0FFFF = .error (.unassignedOpcode 0x0) ∧
    decode 0x80000 = .error (.unassignedOpcode 0x8) ∧ decode 0xFFFFF = .error (.unassignedOpcode 0xF) := by decide
theorem test_decode_illegal_arguments :
    decode 0x28000 = .error (.argumentNotZero 0x2) ∧ decode 0x40001 = .error (.argumentNotZero 0x4) ∧
    decode 0x60001 = .error (.argumentNotZero 0x6) ∧ decode 0x50100 = .error (.argumentHighNotZero 0x5) ∧
    decode 0x7FFFF = .error (.argumentHighNotZero 0x7) := by decide
theorem test_encode_words :
    encode (.atLoad 0xFFFF) = 0x1FFFF ∧ encode (.atAdv 0x0003) = 0x30003 ∧ encode (.csAdd 0x57) = 0x50057 ∧
    encode (.hxByte 0x9A) = 0x7009A := by decide
theorem test_table_word : decodeTableWord 24 0x500FF = some (.csAdd 0xFF) ∧ decodeTableWord 24 0x50100 = none ∧
    decodeTableWord 24 0x100000 = none := by decide

/-! ### Commands (V2 to V6) -/

theorem test_at_load : nextHas (exec (.atLoad 0xFFFF) (stateWith 0x1234 0xA9 []))
    (fun t => t.addr == 0xFFFF && t.sum == 0xA9 && t.rsp == none) = true := by decide
theorem test_at_cur : nextHas (exec .atCur (stateWith 0xFFF0 0xA9 []))
    (fun t => t.rsp == some 0xFFF0 && t.addr == 0xFFF0 && t.sum == 0xA9) = true := by decide
theorem test_at_adv_wraps_to_zero : nextHas (exec (.atAdv 0x0010) (stateWith 0xFFF0 0xA9 []))
    (fun t => t.addr == 0x0000 && t.sum == 0xA9 && t.rsp == none) = true := by decide
theorem test_at_adv_wraps_past_zero : nextHas (exec (.atAdv 0xFFFF) (stateWith 0x1234 0x00 []))
    (fun t => t.addr == 0x1233) = true := by decide
theorem test_cs_clr : nextHas (exec .csClr (stateWith 0xA000 0xA9 []))
    (fun t => t.sum == 0x00 && t.addr == 0xA000 && t.rsp == none) = true := by decide
theorem test_cs_add_wraps : nextHas (exec (.csAdd 0xFF) (stateWith 0xA000 0xFF []))
    (fun t => t.sum == 0xFE && t.addr == 0xA000 && t.rsp == none) = true := by decide
theorem test_cs_neg : nextHas (exec .csNeg (stateWith 0xA000 0xA9 []))
    (fun t => t.rsp == some 0x0057 && t.sum == 0xA9 && t.addr == 0xA000) = true := by decide
theorem test_cs_neg_of_zero : nextHas (exec .csNeg (stateWith 0 0x00 [])) (fun t => t.rsp == some 0x0000) = true := by
  decide
theorem test_hx_byte : nextHas (exec (.hxByte 0x9A) (stateWith 0xA000 0xA9 []))
    (fun t => t.rsp == some 0x3941 && t.addr == 0xA000 && t.sum == 0xA9) = true := by decide
theorem test_hx_byte_pads : nextHas (exec (.hxByte 0x0A) (stateWith 0 0 [])) (fun t => t.rsp == some 0x3041) = true := by
  decide

/-! ### The step -/

theorem test_step_takes_the_address : nextHas (step (stateWith 0xA000 0x00 [.present (.word 0x20000) 0]))
    (fun t => t.rsp == some 0xA000 && t.host.addrOf 0 == 0xA000 && t.host.queue == []) = true := by decide
theorem test_step_takes_the_characters : nextHas (step (stateWith 0 0 [.present (.hxByte (.lit 0x57)) 3]))
    (fun t => t.host.charsOf 3 == (0x35, 0x37)) = true := by decide
theorem test_step_takes_the_checksum : nextHas (step (stateWith 0 0xA9 [.present (.instr .csNeg) 3]))
    (fun t => t.host.checksumOf 3 == 0x57) = true := by decide
/-- Program P7's illegal word. -/
theorem test_step_illegal : faultIs (step (stateWith 0xA000 0x03 [.present (.word 0x50100) 0])) (.illegalCommand 0x50100) = true := by
  decide
/-- R95: the word presented with reset is ignored, legal or not. -/
theorem test_step_reset : nextHas (step (stateWith 0xA000 0x03 [.reset (some (.word 0x50100))]))
    (fun t => t.addr == 0x0000 && t.sum == 0x00 && t.rsp == none) = true := by decide
theorem test_step_emit : nextHas (step (stateWith 0 0 [.emit (.lit 0x3A)])) (fun t => t.host.sink == [0x3A]) = true := by decide
/-- R7: any 8-bit character. -/
theorem test_step_emit_any : nextHas (step (stateWith 0 0 [.emit (.lit 0xC3)])) (fun t => t.host.sink == [0xC3]) = true := by
  decide
/-- R67: a pair is still held after another `HX.BYTE`, under another name. -/
theorem test_pair_outlives_another_rendering :
    nextHas (step { stateWith 0 0 [] with host := { Sequencer.initial with
        queue := [.present (.hxByte (.lit 0x57)) 2], chars := [(1, (0x41, 0x30))] } })
      (fun t => t.host.charsOf 1 == (0x41, 0x30) && t.host.charsOf 2 == (0x35, 0x37)) = true := by decide
theorem test_step_encode_zero_chunk : faultIs (step (stateWith 1 2 [.encode [1] none (some 0)])) (.configurationError 0) = true := by
  decide
theorem test_step_enc_data_empty : faultIs (step (stateWith 1 2 [.encData (.held 0) []])) (.preconditionViolation 0) = true := by
  decide
theorem test_step_advance_of_any_size : nextHas (step (stateWith 0xFFFE 0 [.present (.atAdv 65540) 0]))
    (fun t => t.addr == 0x0002) = true := by decide
theorem test_fetch_runs_the_word : nextHas (step (State.reset.withFetchWord 24 0x1A000))
    (fun t => t.addr == 0xA000 && t.host == State.reset.host) = true := by decide

/-! ### Records (V7, V8; S2 corrected) -/

/-- `:03A0000001020357`. -/
theorem test_record_scenario : (dataRecord 0xA000 [0x01, 0x02, 0x03]).line =
    [0x3A, 0x30, 0x33, 0x41, 0x30, 0x30, 0x30, 0x30, 0x30, 0x30, 0x31, 0x30, 0x32, 0x30, 0x33, 0x35, 0x37, 0x0A] := by
  decide
/-- V7 rows 3 and 5: the `SS = 00` corner, and the record that straddles the wrap. -/
theorem test_record_checksums :
    (dataRecord 0xFF00 [0x00]).checksum = 0x00 ∧ (dataRecord 0xFFFE [0xDE, 0xAD, 0xBE, 0xEF]).checksum = 0xC7 := by decide
/-- S7: chunk lengths. -/
theorem test_chunk_lengths :
    (chunks 16 (List.replicate 17 0)).map List.length = [16, 1] ∧ (chunks 16 (List.replicate 32 0)).map List.length = [16, 16] ∧
    chunks 16 [] = [] := by decide
/-- V8 row 8: the addresses wrap between the two records. -/
theorem test_encode_addresses :
    (encodeRecords [0xDE, 0xAD, 0xBE, 0xEF] 0xFFFE 2).map (fun r => (r.address, r.checksum)) =
      [(0xFFFE, 0x76), (0x0000, 0x51), (0x0000, 0xFF)] := by decide

/-! ### Witnesses: the hypotheses of each statement can be met together -/

theorem witness_AtLoadReplacesAddr : (0x1FFFF : Command) &&& 0xF0000 = 0x10000 ∧ opField 0x10000 = 0x1 := by decide
theorem witness_AtCurReturnsAddr :
    (0x20000 : Command) &&& 0xFFFFF = 0x20000 ∧ opField 0x20001 = 0x2 ∧ argField 0x20001 ≠ 0 := by decide
theorem witness_AtAdvAddsModulo65536 : (0x3FFFF : Command) &&& 0xF0000 = 0x30000 ∧ opField 0x30000 = 0x3 := by decide
theorem witness_CsClrZeroesSum :
    (0x40000 : Command) &&& 0xFFFFF = 0x40000 ∧ opField 0x40001 = 0x4 ∧ argField 0x40001 ≠ 0 := by decide
theorem witness_CsAddAddsModulo256 :
    (0x500FF : Command) &&& 0xFFF00 = 0x50000 ∧ opField 0x50100 = 0x5 ∧ argHigh 0x50100 ≠ 0 := by decide
theorem witness_CsNegReturnsNegatedSum :
    (0x60000 : Command) &&& 0xFFFFF = 0x60000 ∧ opField 0x60001 = 0x6 ∧ argField 0x60001 ≠ 0 := by decide
theorem witness_HxByteReturnsTwoDigits :
    (0x700FF : Command) &&& 0xFFF00 = 0x70000 ∧ opField 0x70100 = 0x7 ∧ argHigh 0x70100 ≠ 0 := by decide
theorem witness_HexcharIsUppercaseDigit : (9 : Nibble).toNat ≤ 9 ∧ 10 ≤ (10 : Nibble).toNat := by decide
theorem witness_CommandsChangeOnlyTheirOwnRegister :
    (∃ t, exec .csNeg State.reset = .next t) ∧ (∀ a, Instr.csNeg ≠ .atLoad a) ∧ (∀ n, Instr.csNeg ≠ .atAdv n) ∧
    Instr.csNeg ≠ .csClr ∧ (∀ b, Instr.csNeg ≠ .csAdd b) :=
  ⟨⟨_, rfl⟩, by simp, by simp, by simp, by simp⟩
theorem witness_EncodeOfDecodeIsTheWord : decode 0x500FF = .ok (.csAdd 0xFF) := by decide
theorem witness_NoWordMatchesTwoRows :
    (opcodeTable.filter (fun r => r.selectedBy 0x500FF)).map Row.mnemonic = ["CS.ADD"] := by decide
theorem witness_StepRunsThePresentedCommand :
    (stateWith 0 0 [.present (.word 0x40000) 0]).host.queue = .present (.word 0x40000) 0 :: [] ∧
    decode ((Presented.word 0x40000).cmd (stateWith 0 0 [.present (.word 0x40000) 0]).host) = .ok .csClr := by decide
theorem witness_StepRunsTheFetchedTableWord : decodeTableWord 24 0x3FFFF = some (.atAdv 0xFFFF) := by decide
theorem witness_IllegalWordRaisesIllegalCommand :
    isLegal ((Presented.word 0x00000).cmd (stateWith 0 0 [.present (.word 0x00000) 0]).host) = false := by decide
/-- One presented word for each clause. -/
theorem witness_ResponsesAreTakenInTheirStep :
    [0x20000, 0x60000, 0x700FF, 0x1FFFF, 0x3FFFF, 0x40000, 0x500FF].map
      (fun w => (nextHas (step (stateWith 0 0 [.present (.word w) 0])) (fun _ => true), isLegal w)) =
      List.replicate 7 (true, true) := by decide
theorem witness_EmitAppendsOneCharacter : (stateWith 0 0 [.emit (.second 0)]).host.queue = .emit (.second 0) :: [] := by decide
theorem witness_IdlenessChangesNothing : (stateWith 1 1 []).host.queue = [] := by decide
theorem witness_ResetWinsOverTheCommand :
    (stateWith 1 1 [.reset (some (.word 0x500FF))]).host.queue = .reset (some (.word 0x500FF)) :: [] := by decide
theorem witness_FaultsHaveExactlyThreeCauses :
    faultIs (step (stateWith 0 0 [.encode [] none (some 0)])) (.configurationError 0) = true ∧
    faultIs (step (stateWith 0 0 [.encData (.held 0) (bytes 256)])) (.preconditionViolation 256) = true ∧
    faultIs (step (stateWith 0 0 [.present (.word 0x80000) 0])) (.illegalCommand 0x80000) = true := by
  refine ⟨by decide, ?_, by decide⟩
  simp only [step, stateWith, perform, dataLengthOk_bytes, bytes_length]
  decide
/-- Both clauses; the second at both ends of `1..255` and with the operand omitted. -/
theorem witness_ZeroChunkSizeIsConfigurationError :
    (stateWith 0 0 [.encode [] none (some 0)]).host.queue = .encode [] none (some 0) :: [] ∧
    (some 1 : Option Byte) ≠ some 0 ∧ (some 255 : Option Byte) ≠ some 0 ∧ (none : Option Byte) ≠ some 0 := by decide
/-- Both clauses at their bounds: 0, 256 and 1, 255 bytes. -/
theorem witness_EncDataRefusesBadLengths :
    ([] : List Byte).length = 0 ∧ 255 < (bytes 256).length ∧ 1 ≤ [(0 : Byte)].length ∧
    (bytes 255).length ≤ 255 := by
  simp only [bytes_length]; decide
/-- A step that changes `ADDR`, one that changes `SUM`, neither a reset. -/
theorem witness_OnlyTheirCommandsAndResetWriteRegisters :
    nextHas (step (stateWith 0 0 [.present (.word 0x1FFFF) 0])) (fun t => t.addr != 0) = true ∧
    nextHas (step (stateWith 0 0 [.present (.word 0x500FF) 0])) (fun t => t.sum != 0) = true ∧
    nextHas (step (stateWith 1 1 [.reset none])) (fun t => t.addr != 1 && t.sum != 1) = true := by decide
theorem witness_ResponsesExistOnlyInReadSteps :
    nextHas (step (stateWith 0 0 [.present (.word 0x20000) 0])) (fun t => t.rsp != none) = true ∧
    nextHas (step (stateWith 0 0 [.encEof])) (fun t => t.rsp == none) = true := by decide
theorem witness_LineSinkIsAppendOnly :
    nextHas (step (stateWith 0 0 [.emit (.lit 0x0A)])) (fun t => t.host.sink == [0x0A]) = true ∧
    (stateWith 0 0 [.encEof]).emitsChar = false ∧ nextHas (step (stateWith 0 0 [.encEof])) (fun _ => true) = true := by decide
/-- A held pair, a character already emitted, and an emit planned. -/
theorem witness_StepKeepsOnlySinkCodes :
    OnlySinkCodes { stateWith 0 0 [] with host :=
      { Sequencer.initial with queue := [.emit (.first 5), .encEof], sink := [0x3A], chars := [(5, (0x30, 0x41))] } } ∧
    nextHas (step (stateWith 0 0 [.emit (.first 5), .encEof])) (fun _ => true) = true :=
  ⟨⟨by decide, by decide, by simp [ByteRef.isSinkChar]⟩, by decide⟩
/-- Two different states that agree on the registers. -/
theorem witness_EqualRegistersAreIndistinguishable :
    stateWith 1 2 [] ≠ stateWith 1 2 [.encEof] ∧ (stateWith 1 2 []).addr = (stateWith 1 2 [.encEof]).addr ∧
    (stateWith 1 2 []).sum = (stateWith 1 2 [.encEof]).sum := by decide
theorem witness_RegistersAreObservable :
    responses [.atCur, .csNeg] (stateWith 1 2 []) = responses [.atCur, .csNeg] (stateWith 1 2 [.encEof]) := by decide
theorem witness_CommandsOfDifferentPartsCommute : partOf (.atAdv 3) ≠ partOf (.csAdd 5) := by decide
theorem witness_ReadsReturnTheLatestWrite :
    (∀ i ∈ [Instr.csAdd 5, .hxByte 1], (∀ b, i ≠ .atLoad b) ∧ ∀ n, i ≠ .atAdv n) ∧
    (∀ i ∈ [Instr.atAdv 5, .hxByte 1], i ≠ .csClr ∧ ∀ b, i ≠ .csAdd b) := by simp
theorem witness_AddsSumModulo256InAnyOrder : [(0xA0 : Byte), 0x03].Perm [0x03, 0xA0] := by decide
theorem witness_ChecksumIsTheOnlyBalancingByte : (0x00 : Byte) ≠ 0x01 := by decide
theorem witness_HexPairsDetermineTheirByte :
    ∃ t t', exec (.hxByte 0x57) (stateWith 0 0 []) = .next t ∧ exec (.hxByte 0x57) (stateWith 1 1 []) = .next t' ∧
      t.rsp = t'.rsp := ⟨_, _, rfl, rfl, rfl⟩
theorem witness_RecordLineLayout : (dataRecord 0xA000 [0x01, 0x02]).data[1]? = some 0x02 := by decide
theorem witness_OutputLengths : (1 ≤ 1 ∧ 1 ≤ 255) ∧ (1 ≤ 255 ∧ 255 ≤ 255) := by decide
/-- A full chunk before the last, and a short last one. -/
theorem witness_ChunksPartitionTheInput :
    (chunks 2 [1, 2, 3])[0]? = some [1, 2] ∧ (chunks 2 [1, 2, 3])[1]? = some [3] ∧ (chunks 2 [1, 2, 3]).length = 2 := by
  decide
theorem witness_EveryRecordSumsToZero : eofRecord ∈ encodeRecords [] 0x1234 16 := by decide
theorem witness_EncodeHasTheRequiredProperties :
    (List.replicate 32 (0 : Byte)).length = 32 ∧ (List.replicate 5 (0 : Byte)).length = 5 ∧ 1 ≤ 255 ∧
    dataRecords [1] 0 1 ≠ [] := by decide
/-- The last byte of a short last record. -/
theorem witness_InputByteReachesItsTargetAddress : [(1 : Byte), 2, 3][2]? = some 3 ∧ 1 ≤ 2 ∧ 2 ≤ 255 := by decide
theorem witness_Hex2EmitsTheTwoDigits : (stateWith 0 0 [.hex2 (.checksum 0)]).host.queue = .hex2 (.checksum 0) :: [] := by decide
theorem witness_FieldSumsWhatItPrints : (stateWith 0 0 [.field (.addrHi 0)]).host.queue = .field (.addrHi 0) :: [] := by decide
/-- Both clauses at their bounds. -/
theorem witness_EncDataEmitsItsRecordLine :
    (stateWith 0 0 [.encData (.held 0) [1]]).host.queue = .encData (.held 0) [1] :: [] ∧
    1 ≤ [(1 : Byte)].length ∧ (bytes 255).length ≤ 255 ∧ ([] : List Byte).length = 0 ∧
    255 < (bytes 256).length := by
  simp only [bytes_length]; decide
theorem witness_EncEofEmitsTheEofLine : (stateWith 0 0 [.encEof]).host.queue = .encEof :: [] := by decide
/-- The legal `chunk_size` at both ends and omitted; the illegal one. -/
theorem witness_EncodeEmitsTheWholeOutput :
    (stateWith 0 0 [.encode [1] none none]).host.queue = .encode [1] none none :: [] ∧
    (none : Option Byte).getD 16 ≠ 0 ∧ (some 1 : Option Byte).getD 16 ≠ 0 ∧ (some 255 : Option Byte).getD 16 ≠ 0 ∧
    (some 0 : Option Byte).getD 16 = 0 := by decide
theorem witness_EncodeNeverFaults :
    (stateWith 0xFFFF 0 [.encode [1, 2] (some 0xFFFF) (some 1)]).host.queue = [.encode [1, 2] (some 0xFFFF) (some 1)] ∧
    (some 1 : Option Byte) ≠ some 0 := by decide
theorem witness_EncodeIsAPureFunctionOfItsOperands :
    (stateWith 0x0000 0x00 [.encode [1] none none]).host.queue = .encode [1] none none :: [] ∧
    (stateWith 0xBEEF 0x5A [.encode [1] none none, .encEof]).host.queue = .encode [1] none none :: [.encEof] ∧
    (none : Option Byte) ≠ some 0 := by decide
/-- One data byte: all the adds backwards, all the renderings, the negation, its rendering, and only then the emits. -/
def rendersFirst : List Action :=
  let fields := dataFields (.held 0) [1]
  [.present (.instr .csClr) 0] ++ (fields.map fun b => .present (.csAdd b) 0).reverse
    ++ (fields.zipIdx.map fun (b, i) => .present (.hxByte b) i)
    ++ [.present (.instr .csNeg) 0, .present (.hxByte (.checksum 0)) 5]
    ++ (recordActions fields).filter Action.isEmit
/-- The order of R66 itself, and one in which no emit comes before the last command. -/
theorem witness_RecordCommandsMayBeReordered :
    1 ≤ [(1 : Byte)].length ∧ [(1 : Byte)].length ≤ 255 ∧
    AllowedOrder (dataFields (.held 0) [1]) (recordActions (dataFields (.held 0) [1])) ∧
    AllowedOrder (dataFields (.held 0) [1]) rendersFirst ∧
    (stateWith 0 0 rendersFirst).host.queue = rendersFirst ++ [] := by
  unfold AllowedOrder; decide

end Sys2Proof.Tests
end

section
/-! SUPPORT. Proofs of the statements on what one step does (spec/00_scope.md R8): the presented command (R13, R35),
`emit` (R7), no refusal, and which steps write a register (R11, R12). The rules they need come first. -/

namespace Sys2Proof.Machine

/-! ### The host's remaining sequence bears on no operand -/

@[simp] theorem State.withQueue_withQueue (s : State) (q q' : List Action) :
    (s.withQueue q).withQueue q' = s.withQueue q' := rfl

@[simp] theorem State.withQueue_self (s : State) : s.withQueue s.host.queue = s := rfl

@[simp] theorem ByteRef.value_withQueue (b : ByteRef) (s : State) (q : List Action) :
    b.value (s.withQueue q).host = b.value s.host := by
  cases b <;> rfl

@[simp] theorem Presented.cmd_withQueue (p : Presented) (s : State) (q : List Action) :
    p.cmd (s.withQueue q).host = p.cmd s.host := by
  cases p <;> simp [Presented.cmd]

/-! ### One action of the host -/

theorem step_present {s : State} {p : Presented} {x : HostName} {q : List Action}
    (h : s.host.queue = .present p x :: q) : step s = runCommand (p.cmd s.host) x (s.withQueue q) := by
  rw [step_cons s _ q h, perform, Presented.cmd_withQueue]

theorem step_emit {s : State} {c : ByteRef} {q : List Action} (h : s.host.queue = .emit c :: q) :
    step s = .next (((s.withQueue q).emitChar (c.value s.host)).noResponse) := by
  rw [step_cons s _ q h, perform, ByteRef.value_withQueue]

theorem runCommand_of_decode_ok {w : Command} {i : Instr} (h : decode w = .ok i) (x : HostName) (s : State) :
    ∃ t, exec i s = .next t ∧ runCommand w x s = .next (takeResponse i x t) := by
  obtain ⟨j, t, hj, ht, hrun⟩ | ⟨e, he, -⟩ := runCommand_cases w x s
  · cases h.symm.trans hj
    exact ⟨t, ht, hrun⟩
  · cases h.symm.trans he

theorem runCommand_ne_refused (w : Command) (x : HostName) (s : State) (r : Refusal) :
    runCommand w x s ≠ .refused r := by
  obtain ⟨i, t, -, -, hrun⟩ | ⟨e, -, hrun⟩ := runCommand_cases w x s <;> simp [hrun]

theorem perform_ne_refused (act : Action) (s : State) (r : Refusal) : perform act s ≠ .refused r := by
  cases act with
  | present p x => exact runCommand_ne_refused (p.cmd s.host) x s r
  | encData a data => simp only [perform, raise]; split <;> simp
  | encode bytes origin chunk => simp only [perform, raise]; split <;> simp
  | reset _ | emit _ | hex2 _ | field _ | encEof => simp [perform]

/-! ### Every way a step can answer a next state -/

/-- The next states of a step, one rule for each kind of action at the front of the host's sequence. -/
inductive StepsTo (s : State) : State → Prop where
  | idle : s.host.queue = [] → StepsTo s (idle s)
  | command {p x q i u} : s.host.queue = .present p x :: q → decode (p.cmd s.host) = .ok i →
      exec i (s.withQueue q) = .next u → StepsTo s (takeResponse i x u)
  | reset {ignored q} : s.host.queue = .reset ignored :: q → StepsTo s (s.withQueue q).resetBlock
  | emit {c q} : s.host.queue = .emit c :: q →
      StepsTo s (((s.withQueue q).emitChar (c.value s.host)).noResponse)
  | hex2 {b q} : s.host.queue = .hex2 b :: q → StepsTo s ((s.withQueue q).expandInto (hex2Expansion b))
  | field {b q} : s.host.queue = .field b :: q → StepsTo s ((s.withQueue q).expandInto (fieldExpansion b))
  | encData {a data q} : s.host.queue = .encData a data :: q → dataLengthOk data = true →
      StepsTo s ((s.withQueue q).expandInto (dataExpansion a data))
  | encEof {q} : s.host.queue = .encEof :: q → StepsTo s ((s.withQueue q).expandInto eofExpansion)
  | encode {bytes origin chunk q} : s.host.queue = .encode bytes origin chunk :: q →
      chunkSizeOk (chunk.getD Config.defaultChunkSize) = true →
      StepsTo s ((s.withQueue q).noteOutputStart.expandInto
        (encodeExpansion bytes (origin.getD Config.defaultOrigin) (chunk.getD Config.defaultChunkSize)))

theorem StepsTo.step_eq {s t : State} (h : StepsTo s t) : step s = .next t := by
  cases h with
  | idle hq => exact step_nil s hq
  | @command p x q i u hq hi hu =>
    obtain ⟨u', hu', hrun⟩ := runCommand_of_decode_ok hi x (s.withQueue q)
    cases hu.symm.trans hu'
    rw [step_present hq, hrun]
  | emit hq => exact step_emit hq
  | encData hq hok | encode hq hok => simp [step_cons s _ _ hq, perform, hok]
  | reset hq | hex2 hq | field hq | encEof hq => simp [step_cons s _ _ hq, perform]

theorem stepsTo_of_step {s t : State} (h : step s = .next t) : StepsTo s t := by
  cases hq : s.host.queue with
  | nil =>
    cases (step_nil s hq).symm.trans h
    exact .idle hq
  | cons act q =>
    cases act with
    | present p x =>
      rw [step_present hq] at h
      obtain ⟨i, u, hi, hu, hrun⟩ | ⟨e, -, hrun⟩ := runCommand_cases (p.cmd s.host) x (s.withQueue q)
      · cases hrun.symm.trans h
        exact .command hq hi hu
      · cases hrun.symm.trans h
    | emit c =>
      cases (step_emit hq).symm.trans h
      exact .emit hq
    | encData a data =>
      simp only [step_cons s _ q hq, perform, raise] at h
      split at h <;> cases h
      exact .encData hq ‹_›
    | encode bytes origin chunk =>
      simp only [step_cons s _ q hq, perform, raise] at h
      split at h <;> cases h
      exact .encode hq ‹_›
    | reset ignored => cases (step_cons s _ q hq).symm.trans h; exact .reset hq
    | hex2 b => cases (step_cons s _ q hq).symm.trans h; exact .hex2 hq
    | field b => cases (step_cons s _ q hq).symm.trans h; exact .field hq
    | encEof => cases (step_cons s _ q hq).symm.trans h; exact .encEof hq

/-- What a step can do, said once. -/
theorem step_eq_next_iff {s t : State} : step s = .next t ↔ StepsTo s t :=
  ⟨stepsTo_of_step, StepsTo.step_eq⟩

/-! ### The presented command (R8, R13, R35) -/

/-- Settles O17: the word is legal, so the step is its command and the taking of the response, which leaves the block's
registers and response, and the host's position in its sequence, as the command left them. -/
theorem stepRunsThePresentedCommand : Obligations.StepRunsThePresentedCommand := by
  intro s p x q i hq hi
  obtain ⟨t, ht, hrun⟩ := runCommand_of_decode_ok hi x (s.withQueue q)
  obtain ⟨haddr, hsum, hrsp⟩ := takeResponse_block i x t
  obtain ⟨hqueue, -, -⟩ := takeResponse_host i x t
  have hleft : t.host.queue = q := by rw [exec_host ht, State.withQueue_host_queue]
  exact ⟨t, ht, (step_present hq).trans hrun, haddr, hsum, hrsp, hqueue.trans hleft⟩

theorem decodeTableWord_eq_some {nbits w : Nat} {i : Instr} (h : decodeTableWord nbits w = some i) :
    ∃ cmd, commandOfTableWord nbits w = some cmd ∧ decode cmd = .ok i := by
  unfold decodeTableWord at h
  split at h
  next => cases h
  next cmd hcmd =>
    split at h <;> cases h
    exact ⟨cmd, hcmd, ‹_›⟩

theorem State.withFetchWord_of_some {nbits w : Nat} {cmd : Command} (h : commandOfTableWord nbits w = some cmd)
    (s : State) :
    s.withFetchWord nbits w = s.withQueue (.present (.word cmd) ownName :: s.host.queue) := by
  simp [State.withFetchWord, h]

/-- Settles O18: taking the placed word off the host's sequence again leaves the state it was placed in front of. -/
theorem stepRunsTheFetchedTableWord : Obligations.StepRunsTheFetchedTableWord := by
  intro s nbits w i hw
  obtain ⟨cmd, hcmd, hi⟩ := decodeTableWord_eq_some hw
  rw [State.withFetchWord_of_some hcmd]
  obtain ⟨t, ht, hstep, -⟩ := stepRunsThePresentedCommand (s.withQueue (.present (.word cmd) ownName :: s.host.queue))
    (.word cmd) ownName s.host.queue i rfl hi
  exact ⟨t, ht, hstep⟩

/-! ### The host's `emit` (R7, R8, R65), and refusals -/

/-- Settles O21, by the form of the operand. -/
theorem emitAppendsOneCharacter : Obligations.EmitAppendsOneCharacter := by
  intro s c q hq
  refine ⟨_, step_emit hq, rfl, rfl, rfl, ?_⟩
  cases c <;> rfl

/-- Settles O26: an idle step answers a next state, and no action of the host is refused. -/
theorem noStepIsRefused : Obligations.NoStepIsRefused := by
  intro s r
  cases hq : s.host.queue with
  | nil => simp [step_nil s hq]
  | cons act q =>
    rw [step_cons s act q hq]
    exact perform_ne_refused act (s.withQueue q) r

/-! ### Which steps write a register (R11, R12) -/

/-- What a command writes: nothing, or `ADDR` alone, or `SUM` alone. -/
theorem exec_writes_cases {i : Instr} {s t : State} (h : exec i s = .next t) :
    (t.addr = s.addr ∧ t.sum = s.sum) ∨
    (((∃ a, i = .atLoad a) ∨ ∃ n, i = .atAdv n) ∧ t.sum = s.sum) ∨
    ((i = .csClr ∨ ∃ b, i = .csAdd b) ∧ t.addr = s.addr) := by
  cases i with
  | atLoad a => cases h; exact .inr (.inl ⟨.inl ⟨a, rfl⟩, rfl⟩)
  | atAdv n => cases h; exact .inr (.inl ⟨.inr ⟨n, rfl⟩, rfl⟩)
  | csClr => cases h; exact .inr (.inr ⟨.inl rfl, rfl⟩)
  | csAdd b => cases h; exact .inr (.inr ⟨.inr ⟨b, rfl⟩, rfl⟩)
  | atCur | csNeg | hxByte _ => cases h; exact .inl ⟨rfl, rfl⟩

/-- What a step does to the registers: it is a reset, or the step of a command, which leaves them as its `exec` does, or
it leaves both alone. -/
theorem step_registers_cases {s t : State} (h : step s = .next t) :
    NextIsReset s ∨
    (∃ i q u, NextCommand s i ∧ exec i (s.withQueue q) = .next u ∧ t.addr = u.addr ∧ t.sum = u.sum) ∨
    (t.addr = s.addr ∧ t.sum = s.sum) := by
  cases step_eq_next_iff.mp h with
  | reset hq => exact .inl ⟨_, _, hq⟩
  | @command p x q i u hq hi hu =>
    obtain ⟨haddr, hsum, -⟩ := takeResponse_block i x u
    exact .inr (.inl ⟨i, q, u, ⟨p, x, q, hq, hi⟩, hu, haddr, hsum⟩)
  | idle | emit | hex2 | field | encData | encEof | encode => exact .inr (.inr ⟨rfl, rfl⟩)

/-- What a step writes: anything in a reset, and else nothing, or `ADDR` alone, or `SUM` alone. -/
theorem step_writes_cases {s t : State} (h : step s = .next t) :
    NextIsReset s ∨
    (t.addr = s.addr ∧ t.sum = s.sum) ∨
    (((∃ a, NextCommand s (.atLoad a)) ∨ ∃ n, NextCommand s (.atAdv n)) ∧ t.sum = s.sum) ∨
    ((NextCommand s .csClr ∨ ∃ b, NextCommand s (.csAdd b)) ∧ t.addr = s.addr) := by
  obtain hreset | ⟨i, q, u, hi, hu, haddr, hsum⟩ | hkeep := step_registers_cases h
  · exact .inl hreset
  · rw [haddr, hsum]
    obtain hkeep | ⟨⟨a, rfl⟩ | ⟨n, rfl⟩, hs⟩ | ⟨rfl | ⟨b, rfl⟩, ha⟩ := exec_writes_cases hu
    · exact .inr (.inl hkeep)
    · exact .inr (.inr (.inl ⟨.inl ⟨a, hi⟩, hs⟩))
    · exact .inr (.inr (.inl ⟨.inr ⟨n, hi⟩, hs⟩))
    · exact .inr (.inr (.inr ⟨.inl hi, ha⟩))
    · exact .inr (.inr (.inr ⟨.inr ⟨b, hi⟩, ha⟩))
  · exact .inr (.inl hkeep)

/-- Settles O29, by what a step can write. -/
theorem onlyTheirCommandsAndResetWriteRegisters : Obligations.OnlyTheirCommandsAndResetWriteRegisters := by
  intro s t h
  obtain hreset | ⟨haddr, hsum⟩ | ⟨hcmd, hsum⟩ | ⟨hcmd, haddr⟩ := step_writes_cases h
  · exact ⟨fun _ => .inl hreset, fun _ => .inl hreset, fun hn => absurd hreset hn⟩
  · exact ⟨fun hne => absurd haddr hne, fun hne => absurd hsum hne, fun _ => .inl haddr⟩
  · exact ⟨fun _ => .inr hcmd, fun hne => absurd hsum hne, fun _ => .inr hsum⟩
  · exact ⟨fun hne => absurd haddr hne, fun _ => .inr hcmd, fun _ => .inl haddr⟩

end Sys2Proof.Machine
end

section
/-! SUPPORT. Proofs of the statements on what the block holds (spec/10_state.md): `ADDR` and `SUM` and nothing else (R17),
what each command may change (R11, R12, R34), the values at reset (R19) and the dropped carry of the address adder (R14).
The rules they need come first. -/

namespace Sys2Proof.Machine

/-! ### The next state of each command (R50 to R61) -/

@[simp] theorem exec_atLoad (a : Word) (s : State) : exec (.atLoad a) s = .next (s.writeAddr a).noResponse := rfl

@[simp] theorem exec_atCur (s : State) : exec .atCur s = .next (s.respond s.addr) := rfl

@[simp] theorem exec_atAdv (n : Word) (s : State) :
    exec (.atAdv n) s = .next (s.writeAddr (wrapAddAddr s.addr n)).noResponse := rfl

@[simp] theorem exec_csClr (s : State) : exec .csClr s = .next (s.writeSum 0x00).noResponse := rfl

@[simp] theorem exec_csAdd (b : Byte) (s : State) :
    exec (.csAdd b) s = .next (s.writeSum (wrapAddSum s.sum b)).noResponse := rfl

@[simp] theorem exec_csNeg (s : State) : exec .csNeg s = .next (s.respond (zeroExtend16 (negateSum s.sum))) := rfl

@[simp] theorem exec_hxByte (b : Byte) (s : State) :
    exec (.hxByte b) s = .next (s.respond (concatBytes (hexchar (highNibble b)) (hexchar (lowNibble b)))) := rfl

/-! ### Sequences of commands -/

@[simp] theorem execList_nil (s : State) : execList [] s = .next s := rfl

@[simp] theorem responses_nil (s : State) : responses [] s = [] := rfl

theorem execList_cons {i : Instr} {s t : State} (h : exec i s = .next t) (is : List Instr) :
    execList (i :: is) s = execList is t := by
  simp [execList, h]

theorem responses_cons {i : Instr} {s t : State} (h : exec i s = .next t) (is : List Instr) :
    responses (i :: is) s = t.rsp :: responses is t := by
  simp [responses, h]

/-! ### The block holds nothing but `ADDR` and `SUM` (R17) -/

/-- A command's effect on the registers, and its response, depend on the registers only. -/
theorem exec_congr_registers (i : Instr) {s s' : State} (haddr : s.addr = s'.addr) (hsum : s.sum = s'.sum) :
    ∃ t t', exec i s = .next t ∧ exec i s' = .next t' ∧ t.addr = t'.addr ∧ t.sum = t'.sum ∧ t.rsp = t'.rsp := by
  cases i <;> simp [haddr, hsum]

/-- Settles O34, by induction on the commands: after each one the two states agree on the registers again. -/
theorem equalRegistersAreIndistinguishable : Obligations.EqualRegistersAreIndistinguishable := by
  intro is
  induction is with
  | nil =>
    intro s s' haddr hsum
    exact ⟨rfl, s, s', rfl, rfl, haddr, hsum⟩
  | cons i is ih =>
    intro s s' haddr hsum
    obtain ⟨u, u', hu, hu', huaddr, husum, hursp⟩ := exec_congr_registers i haddr hsum
    rw [responses_cons hu, responses_cons hu', execList_cons hu, execList_cons hu', hursp]
    obtain ⟨hresponses, hends⟩ := ih u u' huaddr husum
    exact ⟨congrArg _ hresponses, hends⟩

/-! ### What each command may change (R11, R12, R20, R34) -/

theorem exec_addr_of_ne {i : Instr} {s t : State} (h : exec i s = .next t) (hload : ∀ a, i ≠ .atLoad a)
    (hadv : ∀ n, i ≠ .atAdv n) : t.addr = s.addr := by
  obtain ⟨haddr, -⟩ | ⟨⟨a, ha⟩ | ⟨n, hn⟩, -⟩ | ⟨-, haddr⟩ := exec_writes_cases h
  · exact haddr
  · exact absurd ha (hload a)
  · exact absurd hn (hadv n)
  · exact haddr

theorem exec_sum_of_ne {i : Instr} {s t : State} (h : exec i s = .next t) (hclr : i ≠ .csClr)
    (hadd : ∀ b, i ≠ .csAdd b) : t.sum = s.sum := by
  obtain ⟨-, hsum⟩ | ⟨-, hsum⟩ | ⟨hi | ⟨b, hb⟩, -⟩ := exec_writes_cases h
  · exact hsum
  · exact hsum
  · exact absurd hi hclr
  · exact absurd hb (hadd b)

/-- The commands that return a response are the three read commands (R34). -/
theorem exec_rsp_ne_none_iff {i : Instr} {s t : State} (h : exec i s = .next t) :
    t.rsp ≠ none ↔ i = .atCur ∨ i = .csNeg ∨ ∃ b, i = .hxByte b := by
  cases i <;> cases h <;> simp

/-- Settles O9, one clause from each frame rule. -/
theorem commandsChangeOnlyTheirOwnRegister : Obligations.CommandsChangeOnlyTheirOwnRegister :=
  fun _ _ _ h => ⟨exec_host h, exec_addr_of_ne h, exec_sum_of_ne h, exec_rsp_ne_none_iff h⟩

/-! ### Reset (R19, R39) -/

/-- Settles O23: each value is the one the reset state and the parameters are given. -/
theorem resetValuesAreThoseGiven : Obligations.ResetValuesAreThoseGiven := ⟨rfl, rfl, rfl, rfl, rfl, rfl⟩

/-- A host that has emitted nothing, holds no character and plans nothing meets the invariant of R39. -/
theorem onlySinkCodes_of_host_initial {s : State} (h : s.host = Sequencer.initial) : OnlySinkCodes s := by
  simp [OnlySinkCodes, h, Sequencer.initial]

/-- Settles O33. -/
theorem resetHoldsOnlySinkCodes : Obligations.ResetHoldsOnlySinkCodes := onlySinkCodes_of_host_initial rfl

/-! ### The dropped carry of the address adder (R14, R52) -/

/-- The adder carried out exactly when its sum is below its first addend: the carry is worth more than the second. -/
theorem addrCarryOut_iff_lt (a n : Word) : addrCarryOut a n = true ↔ (wrapAddAddr a n).toNat < a.toNat := by
  have hsum : (wrapAddAddr a n).toNat + (if addrCarryOut a n then 65536 else 0) = a.toNat + n.toNat :=
    wrapAddAddr_add_carry a n
  have hn : n.toNat < 65536 := n.isLt
  split at hsum
  next hcarry => exact iff_of_true hcarry (by omega)
  next hcarry => exact iff_of_false hcarry (by omega)

/-- Settles O38: the carry is what the sum lacks, and by that the mark of a smaller address. -/
theorem addressWrapIsSeenOnlyByComparing : Obligations.AddressWrapIsSeenOnlyByComparing :=
  fun n s => ⟨_, exec_atAdv n s, wrapAddAddr_add_carry s.addr n, addrCarryOut_iff_lt s.addr n, rfl, rfl, rfl⟩

end Sys2Proof.Machine
end

section
/-! SUPPORT. Proofs of the statements of spec/20_memory.md and of the order of commands (spec/70_reset_and_hazards.md R28):
the line-sink only grows (R22), commands of different parts commute, a read returns the latest write, and every input byte
stands in its record at its target address (R21, R24). The rules they need come first. -/

namespace Sys2Proof.Machine

/-! ### The line-sink (R8, R22) -/

theorem State.emitsChar_of_emit {s : State} {c : ByteRef} {q : List Action} (h : s.host.queue = .emit c :: q) :
    s.emitsChar = true := by
  simp [State.emitsChar, h]

/-- What a step does to the line-sink: an emit appends its character, and every other step leaves it alone. -/
theorem step_sink_cases {s t : State} (h : step s = .next t) :
    (s.emitsChar = true ∧ ∃ c : ByteRef, t.host.sink = s.host.sink ++ [c.value s.host]) ∨
    t.host.sink = s.host.sink := by
  cases step_eq_next_iff.mp h with
  | @emit c q hq => exact .inl ⟨State.emitsChar_of_emit hq, c, rfl⟩
  | @command p x q i u hq hi hu =>
    obtain ⟨-, hsink, -⟩ := takeResponse_host i x u
    exact .inr (by rw [hsink, exec_host hu, State.withQueue_host_sink])
  | idle | reset | hex2 | field | encData | encEof | encode => exact .inr rfl

/-- Settles O31, by what a step does to the line-sink. -/
theorem lineSinkIsAppendOnly : Obligations.LineSinkIsAppendOnly := by
  intro s t h
  obtain ⟨hemit, c, hsink⟩ | hsink := step_sink_cases h
  · exact ⟨.inr ⟨_, hsink⟩, fun hno => absurd hemit (by simp [hno])⟩
  · exact ⟨.inl hsink, fun _ => hsink⟩

/-! ### Commands of different parts (R2, R28 item b) -/

/-- What the register of a part holds, as a number; the `hex_formatter` has no register (R10). -/
def State.partValue (s : State) : Part → Nat
  | .addressWrapAdder    => s.addr.toNat
  | .checksumAccumulator => s.sum.toNat
  | .hexFormatter        => 0

/-- States that agree on every part's register agree on the whole block (R17). -/
theorem registers_eq_of_partValue_eq {s t : State} (h : ∀ p, s.partValue p = t.partValue p) :
    s.addr = t.addr ∧ s.sum = t.sum :=
  ⟨BitVec.eq_of_toNat_eq (h .addressWrapAdder), BitVec.eq_of_toNat_eq (h .checksumAccumulator)⟩

/-- A command leaves the registers of the other parts alone. -/
theorem exec_partValue_of_ne {i : Instr} {s t : State} (h : exec i s = .next t) {p : Part} (hp : p ≠ partOf i) :
    t.partValue p = s.partValue p := by
  cases p with
  | addressWrapAdder =>
    exact congrArg BitVec.toNat
      (exec_addr_of_ne h (fun _ hi => hp (by rw [hi, partOf])) (fun _ hi => hp (by rw [hi, partOf])))
  | checksumAccumulator =>
    exact congrArg BitVec.toNat
      (exec_sum_of_ne h (fun hi => hp (by rw [hi, partOf])) (fun _ hi => hp (by rw [hi, partOf])))
  | hexFormatter => rfl

/-- A command's response, and what it leaves in the register of its part, depend on that register only. -/
theorem exec_congr_partValue {i : Instr} {s s' t t' : State} (h : exec i s = .next t) (h' : exec i s' = .next t')
    (hs : s.partValue (partOf i) = s'.partValue (partOf i)) :
    t.partValue (partOf i) = t'.partValue (partOf i) ∧ t.rsp = t'.rsp := by
  cases i with
  | atLoad | atCur | atAdv =>
    have haddr : s.addr = s'.addr := BitVec.eq_of_toNat_eq hs
    cases h; cases h'; simp [partOf, State.partValue, haddr]
  | csClr | csAdd | csNeg =>
    have hsum : s.sum = s'.sum := BitVec.eq_of_toNat_eq hs
    cases h; cases h'; simp [partOf, State.partValue, hsum]
  | hxByte => cases h; cases h'; exact ⟨rfl, rfl⟩

/-- Settles O36: neither command sees or touches the register of the other's part, so each does from the state after the
other what it does from the first state. -/
theorem commandsOfDifferentPartsCommute : Obligations.CommandsOfDifferentPartsCommute := by
  intro i j s hne
  obtain ⟨si, hi⟩ := exec_next i s
  obtain ⟨sj, hj⟩ := exec_next j s
  obtain ⟨sij, hij⟩ := exec_next j si
  obtain ⟨sji, hji⟩ := exec_next i sj
  obtain ⟨hvaluei, hrspi⟩ := exec_congr_partValue hji hi (exec_partValue_of_ne hj hne)
  obtain ⟨hvaluej, hrspj⟩ := exec_congr_partValue hij hj (exec_partValue_of_ne hi hne.symm)
  have hvalue (p : Part) : sij.partValue p = sji.partValue p := by
    by_cases hpi : p = partOf i
    · subst hpi
      exact (exec_partValue_of_ne hij hne).trans hvaluei.symm
    by_cases hpj : p = partOf j
    · subst hpj
      exact hvaluej.trans (exec_partValue_of_ne hji hne.symm).symm
    · rw [exec_partValue_of_ne hij hpj, exec_partValue_of_ne hi hpi,
        exec_partValue_of_ne hji hpi, exec_partValue_of_ne hj hpj]
  obtain ⟨haddr, hsum⟩ := registers_eq_of_partValue_eq hvalue
  have hhost : sij.host = sji.host := by rw [exec_host hij, exec_host hi, exec_host hji, exec_host hj]
  refine ⟨sij, sji, si.rsp, sj.rsp, ?_, ?_, haddr, hsum, hhost, ?_, ?_⟩
  · rw [execList_cons hi, execList_cons hij, execList_nil]
  · rw [execList_cons hj, execList_cons hji, execList_nil]
  · rw [responses_cons hi, responses_cons hij, responses_nil, hrspj]
  · rw [responses_cons hj, responses_cons hji, responses_nil, hrspi]

/-! ### Reads and the latest write (R28 item a, R105) -/

/-- A command in front does not change what a sequence answers last. -/
theorem getLast?_responses_cons {i : Instr} {is : List Instr} {s t : State} {r : Option Word}
    (h : exec i s = .next t) (hlast : (responses is t).getLast? = some r) :
    (responses (i :: is) s).getLast? = some r := by
  rw [responses_cons h, List.getLast?_cons, hlast, Option.getD_some]

/-- A read command after commands that keep what it answers returns the answer of the state they began in. -/
theorem getLast?_responses_read {read : Instr} {answer : State → Word}
    (hread : ∀ s t, exec read s = .next t → t.rsp = some (answer s)) {is : List Instr}
    (hkeep : ∀ i ∈ is, ∀ s t, exec i s = .next t → answer t = answer s) (s : State) :
    (responses (is ++ [read]) s).getLast? = some (some (answer s)) := by
  induction is generalizing s with
  | nil =>
    obtain ⟨t, ht⟩ := exec_next read s
    rw [List.nil_append, responses_cons ht, hread s t ht, responses_nil, List.getLast?_singleton]
  | cons i is ih =>
    obtain ⟨t, ht⟩ := exec_next i s
    have hlast := ih (fun k hk => hkeep k (List.mem_cons_of_mem i hk)) t
    rw [hkeep i List.mem_cons_self s t ht] at hlast
    exact getLast?_responses_cons ht hlast

/-- `AT.CUR` answers the `ADDR` at the start when no command before it writes `ADDR`. -/
theorem getLast?_responses_atCur {is : List Instr} (his : ∀ i ∈ is, (∀ b, i ≠ .atLoad b) ∧ ∀ n, i ≠ .atAdv n)
    (s : State) : (responses (is ++ [.atCur]) s).getLast? = some (some s.addr) :=
  getLast?_responses_read (answer := State.addr) (fun _ _ h => by cases h; rfl)
    (fun i hi _ _ h => exec_addr_of_ne h (his i hi).1 (his i hi).2) s

/-- `CS.NEG` answers the negated `SUM` at the start when no command before it writes `SUM`. -/
theorem getLast?_responses_csNeg {is : List Instr} (his : ∀ i ∈ is, i ≠ .csClr ∧ ∀ b, i ≠ .csAdd b) (s : State) :
    (responses (is ++ [.csNeg]) s).getLast? = some (some (zeroExtend16 (negateSum s.sum))) :=
  getLast?_responses_read (answer := fun s => zeroExtend16 (negateSum s.sum)) (fun _ _ h => by cases h; rfl)
    (fun i hi _ _ h => by rw [exec_sum_of_ne h (his i hi).1 (his i hi).2]) s

/-- The negation of a cleared sum is zero (R57). -/
theorem zeroExtend16_negateSum_zero : zeroExtend16 (negateSum 0x00) = 0x0000 := by decide

/-- Settles O37: the write's next state holds the value written, and the read answers it from there. -/
theorem readsReturnTheLatestWrite : Obligations.ReadsReturnTheLatestWrite := by
  refine ⟨fun is s his => ⟨fun a => ?_, fun n => ?_, getLast?_responses_atCur his s⟩,
    fun is s his => ⟨?_, fun b => ?_, getLast?_responses_csNeg his s⟩⟩
  · exact getLast?_responses_cons (exec_atLoad a s) (getLast?_responses_atCur his _)
  · exact getLast?_responses_cons (exec_atAdv n s) (getLast?_responses_atCur his _)
  · have hlast := getLast?_responses_csNeg his (s.writeSum 0x00).noResponse
    rw [State.noResponse_sum, State.writeSum_sum, zeroExtend16_negateSum_zero] at hlast
    exact getLast?_responses_cons (exec_csClr s) hlast
  · exact getLast?_responses_cons (exec_csAdd b s) (getLast?_responses_csNeg his _)

/-! ### Chunks, records and target addresses (R21, R69, R70) -/

/-- Byte `j` of `n` falls into one of the chunks. -/
theorem div_lt_chunkCount {c j n : Nat} (hc : 0 < c) (hj : j < n) : j / c < chunkCount c n := by
  have hstep : (j + c) / c = j / c + 1 := Nat.add_div_right j hc
  have hle : (j + c) / c ≤ (n + c - 1) / c := Nat.div_le_div_right (by omega)
  rw [chunkCount]
  omega

/-- Byte `i` of chunk `k` is byte `k * c + i` of the input. -/
theorem getElem?_chunkAt {c i : Nat} (hi : i < c) (bytes : List Byte) (k : Nat) :
    (chunkAt c bytes k)[i]? = bytes[k * c + i]? := by
  rw [chunkAt, List.getElem?_take_of_lt hi, List.getElem?_drop]

theorem getElem?_dataRecords {c k : Nat} {bytes : List Byte} (hk : k < chunkCount c bytes.length) (origin : Word) :
    (dataRecords bytes origin c)[k]? = some (dataRecord (recordAddress origin c k) (chunkAt c bytes k)) := by
  rw [dataRecords, List.getElem?_map, List.getElem?_range hk, Option.map_some]

@[simp] theorem dataRecord_data (a : Word) (data : List Byte) : (dataRecord a data).data = data := rfl

@[simp] theorem dataRecord_address (a : Word) (data : List Byte) : (dataRecord a data).address = a := rfl

theorem toNat_wrapAddAddr_advanceOperand (a : Word) (n : Nat) :
    (wrapAddAddr a (advanceOperand n)).toNat = (a.toNat + n) % 65536 := by
  rw [wrapAddAddr_eq, BitVec.toNat_add, advanceOperand_toNat, Nat.add_mod_mod]

theorem toNat_recordAddress (origin : Word) (c k : Nat) :
    (recordAddress origin c k).toNat = (origin.toNat + k * c) % 65536 :=
  toNat_wrapAddAddr_advanceOperand origin (k * c)

theorem toNat_targetAddress (a : Word) (i : Nat) : (targetAddress a i).toNat = (a.toNat + i) % 65536 :=
  toNat_wrapAddAddr_advanceOperand a i

/-- Settles O52: byte `j` is byte `j % c` of chunk `j / c`, and reducing the record's address first does not change the
target address. -/
theorem inputByteReachesItsTargetAddress : Obligations.InputByteReachesItsTargetAddress := by
  intro bytes origin c j b hc _ hb
  obtain ⟨hj, -⟩ := List.getElem?_eq_some_iff.mp hb
  have hsplit : j / c * c + j % c = j := Nat.div_add_mod' j c
  refine ⟨_, getElem?_dataRecords (div_lt_chunkCount hc hj) origin, ?_, toNat_recordAddress origin c (j / c), ?_⟩
  · rw [dataRecord_data, getElem?_chunkAt (Nat.mod_lt j hc), hsplit, hb]
  · rw [dataRecord_address, toNat_targetAddress, toNat_recordAddress, Nat.mod_add_mod, Nat.add_assoc, hsplit]

end Sys2Proof.Machine
end

section
/-! SUPPORT. Proofs of the statements of spec/30_encoding.md and of what only they need: the command word (R30 to R35), the
taking of a response (R34, R36), the characters of the line-sink (R39) and the text of a record (R37, R40, R41). The rules
they need come first. -/

namespace Sys2Proof.Machine

/-! ### The halves of an address as operands of a byte command (R23, R32) -/

@[simp] theorem highByte_zeroExtend16 (b : Byte) : highByte (zeroExtend16 b) = 0 := by
  apply BitVec.eq_of_getLsbD_eq
  intro k hk
  simp [highByte, zeroExtend16]

/-- A word whose high byte is zero is its low byte. -/
theorem eq_zeroExtend16_of_highByte_eq_zero {a : Word} (h : highByte a = 0) : a = zeroExtend16 (lowByte a) := by
  apply BitVec.eq_of_getLsbD_eq
  intro k hk
  by_cases hlow : k < 8
  · simp [zeroExtend16, lowByte, hk, hlow]
  · have hbit := congrArg (fun b : Byte => b.getLsbD (k - 8)) h
    have hlt : k - 8 < 8 := by omega
    have hsum : 8 + (k - 8) = k := by omega
    simpa [zeroExtend16, lowByte, highByte, hlow, hlt, hsum] using hbit

/-- Masking with `0xFF00` keeps the high byte. -/
theorem highByte_eq_zero_of_mask {a : Word} (h : a &&& 0xFF00 = 0) : highByte a = 0 := by
  have hmask : highByte a &&& BitVec.allOnes 8 = 0 := by
    rw [show BitVec.allOnes 8 = highByte 0xFF00 from rfl, highByte, highByte, ← BitVec.extractLsb'_and, h]; rfl
  rwa [BitVec.and_allOnes] at hmask

/-! ### The branches of the decoder (R31, R33) -/

theorem argHigh_encode (i : Instr) : argHigh (encode i) = highByte i.arg := by rw [argHigh, argField_encode, highByte]

theorem argLow_encode (i : Instr) : argLow (encode i) = lowByte i.arg := by rw [argLow, argField_encode, lowByte]

/-- The operand field of a byte command is its operand, extended by zeros (R32). -/
theorem argField_eq_of_argHigh_eq_zero {w : Command} (h : argHigh w = 0) : argField w = zeroExtend16 (argLow w) :=
  eq_zeroExtend16_of_highByte_eq_zero h

theorem decodeNoOperand_eq_ok_iff {w : Command} {i j : Instr} :
    decodeNoOperand w i = .ok j ↔ argField w = 0 ∧ i = j := by
  
  unfold decodeNoOperand
  split
  next h => simp only [h, true_and, Except.ok.injEq]
  next h => simp only [h, false_and, reduceCtorEq]

theorem decodeByteOperand_eq_ok_iff {w : Command} {i : Byte → Instr} {j : Instr} :
    decodeByteOperand w i = .ok j ↔ argHigh w = 0 ∧ i (argLow w) = j := by
  
  unfold decodeByteOperand
  split
  next h => simp only [h, true_and, Except.ok.injEq]
  next h => simp only [h, false_and, reduceCtorEq]

theorem decodeNoOperand_error_iff {w : Command} {i : Instr} :
    (∃ e, decodeNoOperand w i = .error e) ↔ argField w ≠ 0 := by
  
  unfold decodeNoOperand
  split
  next h => exact iff_of_false (by simp) (not_not_intro h)
  next h => exact iff_of_true ⟨_, rfl⟩ h

theorem decodeByteOperand_error_iff {w : Command} {i : Byte → Instr} :
    (∃ e, decodeByteOperand w i = .error e) ↔ argHigh w ≠ 0 := by
  
  unfold decodeByteOperand
  split
  next h => exact iff_of_false (by simp) (not_not_intro h)
  next h => exact iff_of_true ⟨_, rfl⟩ h

/-! ### The decoder and the encoder (R30 to R33, R35) -/

@[simp] theorem decode_encode (i : Instr) : decode (encode i) = .ok i := by
  cases i with
  | atLoad a | atAdv n => simp [decode, Instr.opcode, Instr.arg]
  | atCur | csClr | csNeg => simp [decode, Instr.opcode, Instr.arg, decodeNoOperand]
  | csAdd b | hxByte b =>
    have harg : b.setWidth 16 = zeroExtend16 b := rfl
    simp [decode, Instr.opcode, Instr.arg, decodeByteOperand, argHigh_encode, argLow_encode, harg]

/-- Settles O11: a term is well formed by its type, and the decoder reads back the two fields the encoder wrote. -/
theorem decodeOfEncodeIsTheCommand : Obligations.DecodeOfEncodeIsTheCommand :=
  fun i => ⟨by cases i <;> rfl, decode_encode i⟩

/-- A legal word has the opcode and the operand field of its command (R30). -/
theorem fields_of_decode {w : Command} {i : Instr} (h : decode w = .ok i) :
    opField w = i.opcode ∧ argField w = i.arg := by
  have hop {k : Nat} {n : Nibble} (hk : (opField w).toNat = k) (hn : n.toNat = k) : opField w = n :=
    BitVec.eq_of_toNat_eq (hk.trans hn.symm)
  unfold decode at h
  split at h
  case h_1 hk | h_3 hk => cases h; exact ⟨hop hk rfl, rfl⟩
  case h_2 hk | h_4 hk | h_6 hk =>
    obtain ⟨harg, rfl⟩ := decodeNoOperand_eq_ok_iff.mp h
    exact ⟨hop hk rfl, harg⟩
  case h_5 hk | h_7 hk =>
    obtain ⟨hhigh, rfl⟩ := decodeByteOperand_eq_ok_iff.mp h
    exact ⟨hop hk rfl, argField_eq_of_argHigh_eq_zero hhigh⟩
  case h_8 => cases h

/-- Settles O12: a word is its two fields, and both are those of the command. -/
theorem encodeOfDecodeIsTheWord : Obligations.EncodeOfDecodeIsTheWord := by
  intro w i h
  obtain ⟨hop, harg⟩ := fields_of_decode h
  exact (encode_fields w i hop harg).symm

/-- The encoder and the decoder are inverse to each other. -/
theorem decode_eq_ok_iff {w : Command} {i : Instr} : decode w = .ok i ↔ encode i = w :=
  ⟨encodeOfDecodeIsTheWord w i, fun h => h ▸ decode_encode i⟩

/-! ### Illegal words (R33) -/

theorem isLegal_eq_true_iff {w : Command} : isLegal w = true ↔ ∃ i, decode w = .ok i := by
  unfold isLegal
  cases decode w <;> simp

theorem isLegal_eq_false_iff {w : Command} : isLegal w = false ↔ ∃ e, decode w = .error e := by
  unfold isLegal
  cases decode w <;> simp

/-- Settles O15, by the branches of the decoder, one for each opcode and one for the unassigned ones. -/
theorem illegalWordsAreThoseListed : Obligations.IllegalWordsAreThoseListed := by
  intro w
  rw [isLegal_eq_false_iff]
  unfold decode
  split
  case h_1 hk | h_3 hk => simp [hk]
  case h_2 hk | h_4 hk | h_6 hk => simp [hk, decodeNoOperand_error_iff]
  case h_5 hk | h_7 hk => simp [hk, decodeByteOperand_error_iff]
  case h_8 h1 h2 h3 h4 h5 h6 h7 =>
    have hop : (opField w).toNat = 0 ∨ 8 ≤ (opField w).toNat := by
      simp only [imp_false] at h1 h2 h3 h4 h5 h6 h7
      omega
    exact iff_of_true ⟨_, rfl⟩ (hop.imp id .inl)

/-! ### The number of legal words (R33) -/

theorem isLegal_encode (i : Instr) : isLegal (encode i) = true := isLegal_eq_true_iff.mpr ⟨i, decode_encode i⟩

/-- Each command has exactly one legal word, and each legal word is of one command. -/
theorem encode_bijective_legal :
    Function.Bijective (fun i => (⟨encode i, isLegal_encode i⟩ : { w : Command // isLegal w = true })) := by
  constructor
  · intro i j hij
    have henc : encode i = encode j := congrArg Subtype.val hij
    have hok : (.ok i : Except Illegal Instr) = .ok j := by rw [← decode_encode i, henc, decode_encode]
    exact Except.ok.inj hok
  · intro ⟨w, hw⟩
    obtain ⟨i, hi⟩ := isLegal_eq_true_iff.mp hw
    exact ⟨i, Subtype.ext (decode_eq_ok_iff.mp hi)⟩

/-- The commands by their operand: two with a word, two with a byte, three without (R31, R32). -/
def commandOperandEquiv : Instr ≃ (Word ⊕ Word) ⊕ (Byte ⊕ Byte) ⊕ Fin 3 where
  toFun
    | .atLoad a => .inl (.inl a)
    | .atAdv n  => .inl (.inr n)
    | .csAdd b  => .inr (.inl (.inl b))
    | .hxByte b => .inr (.inl (.inr b))
    | .atCur    => .inr (.inr 0)
    | .csClr    => .inr (.inr 1)
    | .csNeg    => .inr (.inr 2)
  invFun
    | .inl (.inl a)       => .atLoad a
    | .inl (.inr n)       => .atAdv n
    | .inr (.inl (.inl b)) => .csAdd b
    | .inr (.inl (.inr b)) => .hxByte b
    | .inr (.inr 0)       => .atCur
    | .inr (.inr 1)       => .csClr
    | .inr (.inr 2)       => .csNeg
  left_inv i := by cases i <;> rfl
  right_inv
    | .inl (.inl _) | .inl (.inr _) | .inr (.inl (.inl _)) | .inr (.inl (.inr _)) => rfl
    | .inr (.inr 0) | .inr (.inr 1) | .inr (.inr 2) => rfl

theorem card_bitVec (n : Nat) : Fintype.card (BitVec n) = 2 ^ n := by
  rw [← FinEnum.card_eq_fintypeCard, FinEnum.card_bitVec]

/-- Settles O16: as many as there are commands, `2 * 2 ^ 16 + 2 * 2 ^ 8 + 3`. -/
theorem legalWordsNumber131587 : Obligations.LegalWordsNumber131587 := by
  have hcard := Fintype.card_congr ((Equiv.ofBijective _ encode_bijective_legal).symm.trans commandOperandEquiv)
  simp only [Fintype.card_sum, card_bitVec, Fintype.card_fin] at hcard
  exact hcard

/-! ### The rows of the opcode map (R31) -/

theorem opField_and (w m : Command) : opField (w &&& m) = opField w &&& opField m := BitVec.extractLsb'_and

theorem argField_and (w m : Command) : argField (w &&& m) = argField w &&& argField m := BitVec.extractLsb'_and

theorem opField_row_pattern (i : Instr) : opField i.row.pattern = i.opcode := by
  cases i <;> simp only [Instr.row] <;> rfl

theorem argField_row_pattern (i : Instr) : argField i.row.pattern = 0 := by
  cases i <;> simp only [Instr.row] <;> rfl

theorem selectedBy_iff {r : Row} {w : Command} : r.selectedBy w = true ↔ w &&& r.mask = r.pattern := by
  rw [Row.selectedBy, beq_iff_eq]

theorem mem_opcodeTable_iff {r : Row} : r ∈ opcodeTable ↔ ∃ i : Instr, i.row = r := by
  constructor
  · intro hr
    simp only [opcodeTable, List.mem_cons, List.not_mem_nil, or_false] at hr
    rcases hr with rfl | rfl | rfl | rfl | rfl | rfl | rfl <;> exact ⟨_, rfl⟩
  · rintro ⟨i, rfl⟩
    cases i <;> simp [opcodeTable, Instr.row]

/-- Every mask of the table covers `OP`. -/
theorem opField_mask_of_mem : ∀ r ∈ opcodeTable, opField r.mask = BitVec.allOnes 4 := by decide

/-- The rows of the table differ in `OP`. -/
theorem eq_of_opField_pattern_eq :
    ∀ r ∈ opcodeTable, ∀ r' ∈ opcodeTable, opField r.pattern = opField r'.pattern → r = r' := by decide

theorem opField_of_selectedBy {r : Row} {w : Command} (hr : r ∈ opcodeTable) (h : r.selectedBy w = true) :
    opField w = opField r.pattern := by
  rw [← selectedBy_iff.mp h, opField_and, opField_mask_of_mem r hr, BitVec.and_allOnes]

/-- Settles O13: every row a word selects has the word's own `OP`, and no two rows have the same. -/
theorem noWordMatchesTwoRows : Obligations.NoWordMatchesTwoRows := by
  intro w r r' hr hr' hsel hsel'
  exact eq_of_opField_pattern_eq r hr r' hr'
    ((opField_of_selectedBy hr hsel).symm.trans (opField_of_selectedBy hr' hsel'))

theorem argField_of_selectedBy {r : Row} {w : Command} (h : r.selectedBy w = true) :
    argField w &&& argField r.mask = argField r.pattern := by
  rw [← selectedBy_iff.mp h, argField_and]

/-- A word that selects the row of a command without an operand has a zero operand field. -/
theorem argField_eq_zero_of_selectedBy {i : Instr} {w : Command} (h : i.row.selectedBy w = true)
    (hmask : argField i.row.mask = BitVec.allOnes 16) : argField w = 0 := by
  rw [← argField_row_pattern i, ← argField_of_selectedBy h, hmask, BitVec.and_allOnes]

/-- The mask of the byte commands covers the high byte of `ARG`. -/
theorem argField_byteMask : argField 0xFFF00 = 0xFF00 := by decide

/-- A word that selects the row of a byte command has its operand in the low byte. -/
theorem argField_eq_argLow_of_selectedBy {i : Instr} {w : Command} (h : i.row.selectedBy w = true)
    (hmask : argField i.row.mask = 0xFF00) : argField w = zeroExtend16 (argLow w) := by
  have harg : argField w &&& 0xFF00 = 0 := by rw [← hmask, ← argField_row_pattern i, argField_of_selectedBy h]
  exact argField_eq_of_argHigh_eq_zero (highByte_eq_zero_of_mask harg)

/-- A word that selects a command's row is the word of a command of that row. -/
theorem exists_encode_of_selectedBy {i : Instr} {w : Command} (h : i.row.selectedBy w = true) :
    ∃ j : Instr, j.row = i.row ∧ encode j = w := by
  have hop : opField w = i.opcode :=
    (opField_of_selectedBy (mem_opcodeTable_iff.mpr ⟨i, rfl⟩) h).trans (opField_row_pattern i)
  have word (j : Instr) (hj : i.opcode = j.opcode) (harg : argField w = j.arg) : encode j = w :=
    (encode_fields w j (hop.trans hj) harg).symm
  cases i with
  | atLoad a => exact ⟨.atLoad (argField w), rfl, word _ rfl rfl⟩
  | atAdv n => exact ⟨.atAdv (argField w), rfl, word _ rfl rfl⟩
  | atCur | csClr | csNeg =>
    exact ⟨_, rfl, word _ rfl (argField_eq_zero_of_selectedBy h rfl)⟩
  | csAdd b => exact ⟨.csAdd (argLow w), rfl, word _ rfl (argField_eq_argLow_of_selectedBy h argField_byteMask)⟩
  | hxByte b => exact ⟨.hxByte (argLow w), rfl, word _ rfl (argField_eq_argLow_of_selectedBy h argField_byteMask)⟩

/-- Every command's word selects its own row, one case from each command's law. -/
theorem row_selectedBy_encode (i : Instr) : i.row.selectedBy (encode i) = true := by
  cases i with
  | atLoad a => exact Laws.TableRow.atLoad a
  | atCur => exact Laws.TableRow.atCur
  | atAdv n => exact Laws.TableRow.atAdv n
  | csClr => exact Laws.TableRow.csClr
  | csAdd b => exact Laws.TableRow.csAdd b
  | csNeg => exact Laws.TableRow.csNeg
  | hxByte b => exact Laws.TableRow.hxByte b

/-- Settles O14: a selected row is a command's, and the word is of a command of that row; a legal word selects its
command's row, so where none is selected the word is illegal. -/
theorem decodeFollowsTheOpcodeMap : Obligations.DecodeFollowsTheOpcodeMap := by
  intro w
  split
  next r hfind =>
    obtain ⟨i, rfl⟩ := mem_opcodeTable_iff.mp (List.mem_of_find?_eq_some hfind)
    obtain ⟨j, hrow, hj⟩ := exists_encode_of_selectedBy (List.find?_some (p := fun r : Row => r.selectedBy w) hfind)
    exact ⟨j, decode_eq_ok_iff.mpr hj, hrow, hj⟩
  next hfind =>
    cases hd : decode w with
    | error e => exact ⟨e, rfl⟩
    | ok i =>
      have hsel := row_selectedBy_encode i
      rw [decode_eq_ok_iff.mp hd] at hsel
      exact absurd hsel (List.find?_eq_none.mp hfind _ (mem_opcodeTable_iff.mpr ⟨i, rfl⟩))

/-- Settles O10: each printed word is the encoding of its command, and the four neighbours are in R33's list. -/
theorem tableWordsDecodeAsPrinted : Obligations.TableWordsDecodeAsPrinted := by
  have hok {w : Command} (i : Instr) (h : encode i = w) : decode w = .ok i := decode_eq_ok_iff.mpr h
  have hillegal (w : Command) := (illegalWordsAreThoseListed w).mpr
  exact ⟨hok _ rfl, hok _ rfl, hok _ rfl, hok _ rfl, hok _ rfl, hok _ rfl, hok _ rfl,
    hillegal _ (by decide), hillegal _ (by decide), hillegal _ (by decide), hillegal _ (by decide)⟩

/-! ### The presented command and its response (R34, R36, R105) -/

/-- A step presents the word of one command at most. -/
theorem nextCommand_iff {s : State} {p : Presented} {x : HostName} {q : List Action} {i : Instr}
    (hq : s.host.queue = .present p x :: q) (hi : decode (p.cmd s.host) = .ok i) (j : Instr) :
    NextCommand s j ↔ i = j := by
  constructor
  · rintro ⟨p', x', q', hq', hj⟩
    cases hq.symm.trans hq'
    exact Except.ok.inj (hi.symm.trans hj)
  · rintro rfl
    exact ⟨p, x, q, hq, hi⟩

theorem NextCommand.presentsCommand {s : State} {i : Instr} (h : NextCommand s i) : s.presentsCommand = true := by
  obtain ⟨p, x, q, hq, -⟩ := h
  simp [State.presentsCommand, hq]

/-- What a step returns: the response of the command presented, or none where no command is presented. -/
theorem step_rsp_cases {s t : State} (h : step s = .next t) :
    (∃ i q u, (∀ j, NextCommand s j ↔ i = j) ∧ exec i (s.withQueue q) = .next u ∧ t.rsp = u.rsp) ∨
    (s.presentsCommand = false ∧ t.rsp = none) := by
  cases step_eq_next_iff.mp h with
  | @command p x q i u hq hi hu =>
    obtain ⟨-, -, hrsp⟩ := takeResponse_block i x u
    exact .inl ⟨i, q, u, nextCommand_iff hq hi, hu, hrsp⟩
  | idle hq | reset hq | emit hq | hex2 hq | field hq | encData hq | encEof hq | encode hq =>
    exact .inr ⟨by simp [State.presentsCommand, hq], rfl⟩

/-- Settles O30: a presented command returns a response exactly when it is a read command, any other step none. -/
theorem responsesExistOnlyInReadSteps : Obligations.ResponsesExistOnlyInReadSteps := by
  intro s t h
  obtain ⟨i, q, u, hnext, hu, hrsp⟩ | ⟨hno, hrsp⟩ := step_rsp_cases h
  · simpa only [hnext, hrsp] using exec_rsp_ne_none_iff hu
  · have hnone (i : Instr) : ¬ NextCommand s i := fun hi =>
      absurd hi.presentsCommand (by simp [hno])
    simp [hrsp, hnone]

/-- The step of a presented command ends in its `exec` and the taking of its response. -/
theorem step_present_eq {s t u : State} {p : Presented} {x : HostName} {q : List Action} {i : Instr}
    (hq : s.host.queue = .present p x :: q) (h : step s = .next t) (hi : decode (p.cmd s.host) = .ok i)
    (hu : exec i (s.withQueue q) = .next u) : t = takeResponse i x u := by
  cases h.symm.trans (StepsTo.command hq hi hu).step_eq
  rfl

/-- Settles O20, one clause for each command: what `exec` answers, and the name it is taken under. -/
theorem responsesAreTakenInTheirStep : Obligations.ResponsesAreTakenInTheirStep := by
  intro s t p x q hq h
  refine ⟨fun hi => ?_, fun hi => ?_, fun b hi => ?_, fun a hi => ?_, fun n hi => ?_, fun hi => ?_, fun b hi => ?_⟩
  · obtain rfl := step_present_eq hq h hi (exec_atCur _)
    exact ⟨rfl, State.holdAddr_addrOf .., fun y hy => State.holdAddr_addrOf_of_ne _ hy _⟩
  · obtain rfl := step_present_eq hq h hi (exec_csNeg _)
    exact ⟨rfl, (State.holdChecksum_checksumOf ..).trans (lowByte_zeroExtend16 _),
      fun y hy => State.holdChecksum_checksumOf_of_ne _ hy _⟩
  · obtain rfl := step_present_eq hq h hi (exec_hxByte b _)
    refine ⟨rfl, (State.holdChars_charsOf ..).trans ?_, fun y hy => State.holdChars_charsOf_of_ne _ hy _⟩
    rw [highByte_concatBytes, lowByte_concatBytes]
  · obtain rfl := step_present_eq hq h hi (exec_atLoad a _)
    rfl
  · obtain rfl := step_present_eq hq h hi (exec_atAdv n _)
    rfl
  · obtain rfl := step_present_eq hq h hi (exec_csClr _)
    rfl
  · obtain rfl := step_present_eq hq h hi (exec_csAdd b _)
    rfl

/-! ### The characters of the line-sink (R39, R60) -/

theorem hexchar_mem_hexCodes : ∀ n : Nibble, hexchar n ∈ hexCodes := by decide

theorem mem_sinkCodes_of_mem_hexCodes {c : Byte} (h : c ∈ hexCodes) : c ∈ sinkCodes :=
  List.mem_cons_of_mem _ (List.mem_cons_of_mem _ h)

/-- A name stands for a value that was bound, or for the value of an unbound one. -/
theorem readName_cases {α : Type} (x : HostName) (u : α) (held : List (HostName × α)) :
    readName x u held = u ∨ ∃ e ∈ held, e.2 = readName x u held := by
  unfold readName
  cases h : held.lookup x with
  | none => exact .inl rfl
  | some v =>
    obtain ⟨l, r, rfl, -⟩ := List.lookup_eq_some_iff.mp h
    exact .inr ⟨(x, v), by simp, rfl⟩

/-- Where the host holds digits only, every name of a pair of characters stands for two digits. -/
theorem charsOf_mem_hexCodes {h : Sequencer} (hchars : ∀ e ∈ h.chars, e.2.1 ∈ hexCodes ∧ e.2.2 ∈ hexCodes)
    (x : HostName) : (h.charsOf x).1 ∈ hexCodes ∧ (h.charsOf x).2 ∈ hexCodes := by
  obtain hx | ⟨e, he, hx⟩ := readName_cases x (0x30, 0x30) h.chars
  · rw [Sequencer.charsOf, hx]; decide
  · rw [Sequencer.charsOf, ← hx]; exact hchars e he

/-- A planned emit of the host of the spec's sequences is of one of the 18 codes. -/
theorem value_mem_sinkCodes {h : Sequencer} (hchars : ∀ e ∈ h.chars, e.2.1 ∈ hexCodes ∧ e.2.2 ∈ hexCodes)
    {c : ByteRef} (hc : c.isSinkChar = true) : c.value h ∈ sinkCodes := by
  cases c with
  | lit b => exact of_decide_eq_true hc
  | first x => exact mem_sinkCodes_of_mem_hexCodes (charsOf_mem_hexCodes hchars x).1
  | second x => exact mem_sinkCodes_of_mem_hexCodes (charsOf_mem_hexCodes hchars x).2
  | addrHi x | addrLo x | checksum x => cases hc

/-- The third part of `OnlySinkCodes`, of any sequence of actions: its emits are as the spec's sequences plan them. -/
def PlansOnlySinkChars (actions : List Action) : Prop := ∀ c, .emit c ∈ actions → c.isSinkChar = true

theorem plansOnlySinkChars_hex2Expansion (b : ByteRef) : PlansOnlySinkChars (hex2Expansion b) := by
  simp [PlansOnlySinkChars, hex2Expansion, ByteRef.isSinkChar]

theorem plansOnlySinkChars_fieldExpansion (b : ByteRef) : PlansOnlySinkChars (fieldExpansion b) := by
  simp [PlansOnlySinkChars, fieldExpansion]

/-- A record's own emits are its start mark and its line end (R65, R66, R68). -/
theorem plansOnlySinkChars_recordExpansion (fields : List ByteRef) : PlansOnlySinkChars (recordExpansion fields) := by
  simp [PlansOnlySinkChars, recordExpansion, ByteRef.isSinkChar, sinkCodes]

theorem plansOnlySinkChars_encodeExpansion (bytes : List Byte) (origin : Word) (c : Byte) :
    PlansOnlySinkChars (encodeExpansion bytes origin c) := by
  simp [PlansOnlySinkChars, encodeExpansion, chunkExpansion]

theorem OnlySinkCodes.withQueue_tail {s : State} {act : Action} {q : List Action} (h : OnlySinkCodes s)
    (hq : s.host.queue = act :: q) : OnlySinkCodes (s.withQueue q) := by
  obtain ⟨hsink, hchars, hplan⟩ := h
  exact ⟨hsink, hchars, fun c hc => hplan c (hq ▸ List.mem_cons_of_mem act hc)⟩

theorem OnlySinkCodes.expandInto {s : State} {actions : List Action} (h : OnlySinkCodes s)
    (hactions : PlansOnlySinkChars actions) : OnlySinkCodes (s.expandInto actions) := by
  obtain ⟨hsink, hchars, hplan⟩ := h
  refine ⟨hsink, hchars, fun c hc => ?_⟩
  obtain hc | hc := List.mem_append.mp hc
  · exact hactions c hc
  · exact hplan c hc

theorem OnlySinkCodes.emitChar {s : State} {b : Byte} (h : OnlySinkCodes s) (hb : b ∈ sinkCodes) :
    OnlySinkCodes (s.emitChar b) := by
  obtain ⟨hsink, hchars, hplan⟩ := h
  refine ⟨fun c hc => ?_, hchars, hplan⟩
  obtain hc | hc := List.mem_append.mp hc
  · exact hsink c hc
  · exact List.mem_singleton.mp hc ▸ hb

/-- The characters the host holds after a command were held before it, or are the two digits of `HX.BYTE`'s byte. -/
theorem mem_chars_takeResponse {i : Instr} {x : HostName} {s u : State} (hu : exec i s = .next u)
    {e : HostName × Byte × Byte} (he : e ∈ (takeResponse i x u).host.chars) :
    e ∈ s.host.chars ∨ ∃ b, e = (x, hexchar (highNibble b), hexchar (lowNibble b)) := by
  cases i with
  | hxByte b =>
    cases hu
    obtain he | he := mem_bindName he
    · exact .inr ⟨b, by rw [he, highByte_concatBytes, lowByte_concatBytes]⟩
    · exact .inl he
  | atLoad | atCur | atAdv | csClr | csAdd | csNeg => cases hu; exact .inl he

theorem OnlySinkCodes.takeResponse {i : Instr} {x : HostName} {s u : State} (h : OnlySinkCodes s)
    (hu : exec i s = .next u) : OnlySinkCodes (takeResponse i x u) := by
  obtain ⟨hsink, hchars, hplan⟩ := h
  obtain ⟨hqueue, hsame, -⟩ := takeResponse_host i x u
  rw [exec_host hu] at hqueue hsame
  refine ⟨hsame ▸ hsink, fun e he => ?_, hqueue ▸ hplan⟩
  obtain he | ⟨b, rfl⟩ := mem_chars_takeResponse hu he
  · exact hchars e he
  · exact ⟨hexchar_mem_hexCodes _, hexchar_mem_hexCodes _⟩

/-- Settles O32, by the kinds of step: a command binds digits only, an emit appends what was planned, and an expansion
plans the start mark, the line end and held characters only. -/
theorem stepKeepsOnlySinkCodes : Obligations.StepKeepsOnlySinkCodes := by
  intro s t h hstep
  cases step_eq_next_iff.mp hstep with
  | idle hq => exact h
  | command hq hi hu => exact (h.withQueue_tail hq).takeResponse hu
  | reset hq => exact h.withQueue_tail hq
  | @emit c q hq =>
    have ⟨_, hchars, hplan⟩ := h
    have hc : c.isSinkChar = true := hplan c (hq ▸ List.mem_cons_self)
    exact (h.withQueue_tail hq).emitChar (value_mem_sinkCodes hchars hc)
  | hex2 hq => exact (h.withQueue_tail hq).expandInto (plansOnlySinkChars_hex2Expansion _)
  | field hq => exact (h.withQueue_tail hq).expandInto (plansOnlySinkChars_fieldExpansion _)
  | encData hq hok => exact (h.withQueue_tail hq).expandInto (plansOnlySinkChars_recordExpansion _)
  | encEof hq => exact (h.withQueue_tail hq).expandInto (plansOnlySinkChars_recordExpansion _)
  | @encode bytes origin chunk q hq hok =>
    have hnoted : OnlySinkCodes (s.withQueue q).noteOutputStart := h.withQueue_tail hq
    exact hnoted.expandInto (plansOnlySinkChars_encodeExpansion _ _ _)

/-! ### The text of a record line (R37, R40, R41) -/

@[simp] theorem length_hexPair (b : Byte) : (hexPair b).length = 2 := rfl

theorem length_flatMap_hexPair (data : List Byte) : (data.flatMap hexPair).length = 2 * data.length := by
  induction data with
  | nil => rfl
  | cons b bs ih => rw [List.flatMap_cons, List.length_append, length_hexPair, ih, List.length_cons]; omega

/-- The pairs of the bytes from byte `i` on begin at character `2 * i`. -/
theorem drop_flatMap_hexPair (data : List Byte) (i : Nat) :
    (data.flatMap hexPair).drop (2 * i) = (data.drop i).flatMap hexPair := by
  induction data generalizing i with
  | nil => simp
  | cons b bs ih =>
    cases i with
    | zero => rfl
    | succ i => exact ih i

/-- The characters of a record line before its data (R37). -/
def Record.head (r : Record) : List Byte :=
  colonChar ::
    (hexPair r.byteCount ++ hexPair (highByte r.address) ++ hexPair (lowByte r.address) ++ hexPair r.recordType)

@[simp] theorem Record.length_head (r : Record) : r.head.length = 9 := rfl

theorem Record.line_eq (r : Record) :
    r.line = r.head ++ (r.data.flatMap hexPair ++ (hexPair r.checksum ++ [newlineChar])) := by
  simp [Record.line, Record.head]

/-- What stands from the pair of data byte `i` on; for the number of data bytes, from the pair of the checksum on. -/
theorem Record.drop_line {r : Record} {i : Nat} (hi : i ≤ r.data.length) :
    r.line.drop (9 + 2 * i) = (r.data.drop i).flatMap hexPair ++ (hexPair r.checksum ++ [newlineChar]) := by
  have hle : 2 * i ≤ (r.data.flatMap hexPair).length := by rw [length_flatMap_hexPair]; omega
  rw [r.line_eq, ← List.drop_drop, List.drop_left' r.length_head, List.drop_append_of_le_length hle,
    drop_flatMap_hexPair]

/-- From the pair of the checksum on (R37). -/
theorem Record.drop_line_data (r : Record) :
    r.line.drop (9 + 2 * r.data.length) = hexPair r.checksum ++ [newlineChar] := by
  rw [Record.drop_line le_rfl, List.drop_length]; rfl

/-- Settles O46: the parts of the line in their order, each cut off at its position. -/
theorem recordLineLayout : Obligations.RecordLineLayout := by
  intro r
  refine ⟨?_, fun i d hd => ?_, ?_, ?_⟩
  · rw [r.line_eq, List.take_left' r.length_head]; rfl
  · obtain ⟨hi, rfl⟩ := List.getElem?_eq_some_iff.mp hd
    rw [Record.drop_line hi.le, List.drop_eq_getElem_cons hi]; rfl
  · rw [r.drop_line_data]; rfl
  · rw [show 11 + 2 * r.data.length = 9 + 2 * r.data.length + 2 by omega, ← List.drop_drop, r.drop_line_data]; rfl

theorem Record.length_line (r : Record) : r.line.length = 12 + 2 * r.data.length := by
  rw [r.line_eq]
  simp only [List.length_append, Record.length_head, length_flatMap_hexPair, length_hexPair, List.length_singleton]
  omega

/-- Settles O48, by evaluating the record's checksum and its line. -/
theorem eofLineIsConstant : Obligations.EofLineIsConstant := ⟨by decide, by decide⟩

/-! ### The text of a whole output (R40, R69) -/

theorem length_flatMap_line (rs : List Record) :
    (rs.flatMap Record.line).length = 12 * rs.length + 2 * (rs.flatMap Record.data).length := by
  induction rs with
  | nil => rfl
  | cons r rs ih =>
    simp only [List.flatMap_cons, List.length_append, List.length_cons, Record.length_line, ih]
    omega

/-- The first `k` chunks together are the first `k * c` bytes. -/
theorem flatMap_chunkAt_range (c : Nat) (bytes : List Byte) (k : Nat) :
    (List.range k).flatMap (chunkAt c bytes) = bytes.take (k * c) := by
  induction k with
  | zero => simp
  | succ k ih =>
    rw [List.range_succ, List.flatMap_append, ih, List.flatMap_singleton, chunkAt, Nat.succ_mul, List.take_add]

/-- `ceil(N / c)` as quotient and remainder. -/
theorem chunkCount_eq {c : Nat} (hc : 0 < c) (n : Nat) :
    chunkCount c n = n / c + if n % c = 0 then 0 else 1 := by
  have hsplit : c * (n / c) + n % c = n := Nat.div_add_mod n c
  have hlt : n % c < c := Nat.mod_lt n hc
  rw [chunkCount]
  split
  next hr =>
    rw [show n + c - 1 = (c - 1) + c * (n / c) by omega, Nat.add_mul_div_left _ _ hc,
      Nat.div_eq_of_lt (by omega)]
    omega
  next hr =>
    rw [show n + c - 1 = (n % c - 1) + c * (n / c + 1) by rw [Nat.mul_succ]; omega, Nat.add_mul_div_left _ _ hc,
      Nat.div_eq_of_lt (by omega)]
    omega

/-- The chunks reach the end of the input. -/
theorem le_chunkCount_mul {c : Nat} (hc : 0 < c) (n : Nat) : n ≤ chunkCount c n * c := by
  by_contra hlt
  have hbeyond := div_lt_chunkCount hc (not_le.mp hlt)
  rw [Nat.mul_div_cancel _ hc] at hbeyond
  exact lt_irrefl _ hbeyond

/-- The data of the data records, one after another, are the input. -/
theorem flatMap_data_dataRecords {c : Nat} (hc : 0 < c) (bytes : List Byte) (origin : Word) :
    (dataRecords bytes origin c).flatMap Record.data = bytes := by
  rw [dataRecords, List.flatMap_map]
  exact (flatMap_chunkAt_range c bytes _).trans (List.take_of_length_le (le_chunkCount_mul hc _))

theorem length_dataRecords (bytes : List Byte) (origin : Word) (c : Nat) :
    (dataRecords bytes origin c).length = chunkCount c bytes.length := by
  simp [dataRecords]

/-- Settles O47: the data records hold the input between them, and the end-of-file record holds no data. -/
theorem outputLengths : Obligations.OutputLengths := by
  refine ⟨Record.length_line, fun bytes origin c hc _ => ?_⟩
  have heof : eofRecord.line.length = 12 := eofRecord.length_line
  rw [encodeText, encodeRecords, List.flatMap_append, List.length_append, List.flatMap_singleton, heof,
    length_flatMap_line, flatMap_data_dataRecords hc, length_dataRecords, chunkCount_eq hc]
  omega

end Sys2Proof.Machine
end

section
/-! SUPPORT. Proofs of the statements of spec/41_address_wrap_adder.md: the three `AT` commands (R50 to R52) and the laws of
the address arithmetic (R53). The rules they need come first. -/

namespace Sys2Proof.Machine

/-! ### The address adder (R52, R53) -/

theorem toNat_wrapAddAddr (a n : Word) : (wrapAddAddr a n).toNat = (a.toNat + n.toNat) % 65536 := by
  rw [wrapAddAddr_eq, BitVec.toNat_add]

/-- The adder's result is the low 16 bits of the 17-bit sum. -/
theorem wrapAddAddr_eq_setWidth_add (a n : Word) :
    wrapAddAddr a n = (a.setWidth 17 + n.setWidth 17).setWidth 16 := by
  have hle : 16 ≤ 17 := by decide
  rw [wrapAddAddr_eq, BitVec.setWidth_add _ _ hle, BitVec.setWidth_setWidth_of_le _ hle,
    BitVec.setWidth_setWidth_of_le _ hle, BitVec.setWidth_eq, BitVec.setWidth_eq]

/-- The operand presented for a sum of two operands is the address adder's sum of them (R32). -/
theorem advanceOperand_toNat_add_toNat (n m : Word) : advanceOperand (n.toNat + m.toNat) = n + m :=
  wrapAddAddr_eq n m

theorem advanceOperand_complement (n : Word) : advanceOperand (65536 - n.toNat) = -n := by
  apply BitVec.eq_of_toNat_eq
  rw [advanceOperand_toNat, BitVec.toNat_neg]

/-! ### Sequences of advances (R53) -/

/-- A second write of `ADDR` covers the first; neither returns a response. -/
theorem State.writeAddr_noResponse_writeAddr (s : State) (v w : Word) :
    ((s.writeAddr v).noResponse.writeAddr w).noResponse = (s.writeAddr w).noResponse := rfl

/-- Two advances end in the state of one by their sum. -/
theorem execList_atAdv_atAdv (n m : Word) (s : State) :
    execList [.atAdv n, .atAdv m] s = .next (s.writeAddr (s.addr + (n + m))).noResponse := by
  rw [execList_cons (exec_atAdv n s), execList_cons (exec_atAdv m _), execList_nil,
    State.writeAddr_noResponse_writeAddr, State.noResponse_addr, State.writeAddr_addr, wrapAddAddr_eq, wrapAddAddr_eq,
    BitVec.add_assoc]

/-- Any advances add their sum to `ADDR`, reduced once at the end. -/
theorem execList_map_atAdv (ns : List Word) (s : State) :
    ∃ t, execList (ns.map Instr.atAdv) s = .next t ∧
      t.addr.toNat = (s.addr.toNat + (ns.map BitVec.toNat).sum) % 65536 ∧ t.sum = s.sum := by
  induction ns generalizing s with
  | nil => exact ⟨s, rfl, (Nat.mod_eq_of_lt s.addr.isLt).symm, rfl⟩
  | cons n ns ih =>
    obtain ⟨t, ht, haddr, hsum⟩ := ih (s.writeAddr (wrapAddAddr s.addr n)).noResponse
    refine ⟨t, (execList_cons (exec_atAdv n s) _).trans ht, ?_, hsum⟩
    rw [haddr, State.noResponse_addr, State.writeAddr_addr, toNat_wrapAddAddr, Nat.mod_add_mod, List.map_cons,
      List.sum_cons, Nat.add_assoc]

/-- Settles O39: items 1 and 3 by what two advances add up to, item 4 by induction on the advances. -/
theorem advancesCompose : Obligations.AdvancesCompose := by
  refine ⟨fun n m s => ?_, fun s => ?_, fun n s => ?_, fun o ns s => ?_⟩
  · rw [execList_atAdv_atAdv, execList_cons (exec_atAdv _ s), execList_nil, advanceOperand_toNat_add_toNat,
      wrapAddAddr_eq]
  · exact ⟨_, exec_atAdv 0 s, (wrapAddAddr_eq s.addr 0).trans (BitVec.add_zero s.addr)⟩
  · refine ⟨_, execList_atAdv_atAdv n _ s, ?_⟩
    rw [State.noResponse_addr, State.writeAddr_addr, advanceOperand_complement, BitVec.add_right_neg, BitVec.add_zero]
  · rw [execList_cons (exec_atLoad o s)]
    exact execList_map_atAdv ns (s.writeAddr o).noResponse

/-! ### Command words by their fields (R30 to R33) -/

theorem opField_or (v w : Command) : opField (v ||| w) = opField v ||| opField w := BitVec.extractLsb'_or

theorem argField_or (v w : Command) : argField (v ||| w) = argField v ||| argField w := BitVec.extractLsb'_or

theorem opField_setWidth (a : Word) : opField (a.setWidth 20) = 0 := by
  apply BitVec.eq_of_getLsbD_eq
  intro k hk
  simp [opField]

theorem argField_setWidth (a : Word) : argField (a.setWidth 20) = a := by
  apply BitVec.eq_of_getLsbD_eq
  intro k hk
  simp [argField, hk]
  omega

/-- The word of a command is its row's match with the operand in the bits below `OP`. -/
theorem encode_eq_pattern_or_arg (i : Instr) : encode i = i.row.pattern ||| i.arg.setWidth 20 := by
  refine (encode_fields _ i ?_ ?_).symm
  · rw [opField_or, opField_row_pattern, opField_setWidth]; exact BitVec.or_zero
  · rw [argField_or, argField_row_pattern, argField_setWidth]; exact BitVec.zero_or

/-- A word with the two fields of a command decodes to it. -/
theorem decode_eq_ok_of_fields {w : Command} {i : Instr} (hop : opField w = i.opcode) (harg : argField w = i.arg) :
    decode w = .ok i :=
  decode_eq_ok_iff.mpr (encode_fields w i hop harg).symm

/-- A word that matches a command's row under its mask has the command's opcode. -/
theorem opField_eq_opcode_of_mask {w : Command} (i : Instr) (h : w &&& i.row.mask = i.row.pattern) :
    opField w = i.opcode :=
  (opField_of_selectedBy (mem_opcodeTable_iff.mpr ⟨i, rfl⟩) (selectedBy_iff.mpr h)).trans (opField_row_pattern i)

/-- Under the mask of every bit, a command is matched by its own word only. -/
theorem and_allOnes_eq_encode_iff {w : Command} {i : Instr} : w &&& 0xFFFFF = encode i ↔ decode w = .ok i := by
  rw [decode_eq_ok_iff, eq_comm, show (0xFFFFF : Command) = BitVec.allOnes 20 from rfl, BitVec.and_allOnes]

/-- An illegal word raises its fault in every state (R83). -/
theorem runCommand_of_isLegal_eq_false {w : Command} (h : isLegal w = false) (x : HostName) (s : State) :
    runCommand w x s = .fault (.illegalCommand w) := by
  obtain ⟨e, he⟩ := isLegal_eq_false_iff.mp h
  obtain ⟨i, -, hi, -⟩ | ⟨-, -, hrun⟩ := runCommand_cases w x s
  · cases he.symm.trans hi
  · exact hrun

/-! ### The three commands (R50 to R52) -/

theorem decode_of_opField_atLoad {w : Command} (h : opField w = 0x1) : decode w = .ok (.atLoad (argField w)) :=
  decode_eq_ok_of_fields h rfl

theorem decode_of_opField_atAdv {w : Command} (h : opField w = 0x3) : decode w = .ok (.atAdv (argField w)) :=
  decode_eq_ok_of_fields h rfl

/-- Settles O1: the next state is the state with `ADDR` written, and the whole operand field is the operand. -/
theorem atLoadReplacesAddr : Obligations.AtLoadReplacesAddr :=
  ⟨fun a s => ⟨_, exec_atLoad a s, rfl, rfl, rfl, rfl, rfl⟩,
    fun a => encode_eq_pattern_or_arg (.atLoad a),
    fun _ h => decode_of_opField_atLoad (opField_eq_opcode_of_mask (.atLoad 0) h),
    fun _ h => ⟨_, decode_of_opField_atLoad h⟩⟩

/-- Settles O2: the next state is the state with `ADDR` as its response, and a nonzero `ARG` is in R33's list. -/
theorem atCurReturnsAddr : Obligations.AtCurReturnsAddr := by
  refine ⟨fun s => ⟨_, exec_atCur s, rfl, rfl, rfl, rfl, rfl⟩, ⟨_, exec_atCur _, rfl⟩, rfl,
    fun _ => and_allOnes_eq_encode_iff (i := .atCur), fun w x s hop harg => ?_⟩
  have hop2 : (opField w).toNat = 0x2 := congrArg BitVec.toNat hop
  have hillegal : isLegal w = false := (illegalWordsAreThoseListed w).mpr (.inr (.inr (.inl ⟨.inl hop2, harg⟩)))
  exact runCommand_of_isLegal_eq_false hillegal x s

/-- Settles O3: the next state is the state with the adder's sum written to `ADDR`. -/
theorem atAdvAddsModulo65536 : Obligations.AtAdvAddsModulo65536 :=
  ⟨fun n s => ⟨_, exec_atAdv n s, toNat_wrapAddAddr s.addr n, wrapAddAddr_eq_setWidth_add s.addr n, rfl, rfl, rfl⟩,
    fun n s => ⟨_, exec_atAdv _ s, toNat_wrapAddAddr_advanceOperand s.addr n⟩,
    fun n => encode_eq_pattern_or_arg (.atAdv n),
    fun _ h => decode_of_opField_atAdv (opField_eq_opcode_of_mask (.atAdv 0) h),
    fun _ h => ⟨_, decode_of_opField_atAdv h⟩⟩

end Sys2Proof.Machine
end

section
/-! SUPPORT. Proofs of the statements of spec/42_checksum_accumulator.md: the three `CS` commands (R55 to R57), the laws of
the checksum arithmetic (R58) and the sum of a record (R59). The rules they need come first. -/

namespace Sys2Proof.Machine

/-! ### The checksum adder (R56, R58) -/

theorem toNat_wrapAddSum (s b : Byte) : (wrapAddSum s b).toNat = (s.toNat + b.toNat) % 256 := by
  rw [wrapAddSum_eq, BitVec.toNat_add]

/-- The adder's result is the low 8 bits of the 9-bit sum. -/
theorem wrapAddSum_eq_setWidth_add (s b : Byte) : wrapAddSum s b = (s.setWidth 9 + b.setWidth 9).setWidth 8 := by
  have hle : 8 ≤ 9 := by decide
  rw [wrapAddSum_eq, BitVec.setWidth_add _ _ hle, BitVec.setWidth_setWidth_of_le _ hle,
    BitVec.setWidth_setWidth_of_le _ hle, BitVec.setWidth_eq, BitVec.setWidth_eq]

/-- The sum of a list of bytes is their sum as numbers, reduced once at the end. -/
theorem toNat_sumBytes (f : List Byte) : (sumBytes f).toNat = (f.map BitVec.toNat).sum % 256 := by
  induction f with
  | nil => rfl
  | cons b f ih => rw [sumBytes_cons, BitVec.toNat_add, ih, Nat.add_mod_mod, List.map_cons, List.sum_cons]

theorem sumBytes_eq_of_perm {f g : List Byte} (h : f.Perm g) : sumBytes f = sumBytes g := by
  apply BitVec.eq_of_toNat_eq
  rw [toNat_sumBytes, toNat_sumBytes, (h.map BitVec.toNat).sum_eq]

/-! ### Sequences of adds (R58) -/

/-- A second write of `SUM` covers the first; neither returns a response. -/
theorem State.writeSum_noResponse_writeSum (s : State) (v w : Byte) :
    ((s.writeSum v).noResponse.writeSum w).noResponse = (s.writeSum w).noResponse := rfl

/-- Adds after a write of `SUM` end in the state of one write, of the sum of it all. -/
theorem execList_map_csAdd_writeSum (f : List Byte) (s : State) (v : Byte) :
    execList (f.map Instr.csAdd) (s.writeSum v).noResponse = .next (s.writeSum (v + sumBytes f)).noResponse := by
  induction f generalizing v with
  | nil => rw [List.map_nil, execList_nil, sumBytes_nil, add_zero]
  | cons b f ih =>
    rw [List.map_cons, execList_cons (exec_csAdd b _), State.writeSum_noResponse_writeSum, State.noResponse_sum,
      State.writeSum_sum, ih, wrapAddSum_eq, sumBytes_cons, BitVec.add_assoc]

/-- A new sum of a list of bytes ends in the state with `SUM` written to their sum. -/
theorem execList_csClr_map_csAdd (f : List Byte) (s : State) :
    execList (.csClr :: f.map Instr.csAdd) s = .next (s.writeSum (sumBytes f)).noResponse := by
  rw [execList_cons (exec_csClr s), execList_map_csAdd_writeSum, zero_add]

/-- Settles O40: the state reached depends on the bytes through their sum only, which no order changes. -/
theorem addsSumModulo256InAnyOrder : Obligations.AddsSumModulo256InAnyOrder := by
  refine ⟨fun f s => ⟨_, execList_csClr_map_csAdd f s, toNat_sumBytes f, rfl⟩, fun f g s hperm => ?_⟩
  rw [execList_csClr_map_csAdd, execList_csClr_map_csAdd, sumBytes_eq_of_perm hperm]

/-! ### The negator (R57, R58) -/

theorem toNat_negateSum (s : Byte) : (negateSum s).toNat = (256 - s.toNat) % 256 := by
  rw [negateSum_eq, BitVec.toNat_neg]

/-- Masking with `0xFF` reduces modulo 256. -/
theorem toNat_negateSum_eq_and (s : Byte) : (negateSum s).toNat = (0x100 - s.toNat) &&& 0xFF :=
  (toNat_negateSum s).trans (Nat.and_two_pow_sub_one_eq_mod _ 8).symm

theorem negateSum_eq_not_add_one (s : Byte) : negateSum s = ~~~s + 1 :=
  (negateSum_eq s).trans (BitVec.neg_eq_not_add s)

/-- Only the negation of zero is reduced. -/
theorem toNat_negateSum_eq_ite (s : Byte) :
    (negateSum s).toNat = if s = 0x00 then 0 else 0x100 - s.toNat := by
  split
  next h => rw [h]; rfl
  next h =>
    have hpos : s.toNat ≠ 0 := fun h0 => h (BitVec.eq_of_toNat_eq h0)
    rw [toNat_negateSum]
    omega

theorem negateSum_negateSum (s : Byte) : negateSum (negateSum s) = s := by
  rw [negateSum_eq, negateSum_eq, BitVec.neg_neg]

theorem negateSum_inj {s s' : Byte} : negateSum s = negateSum s' ↔ s = s' := by
  rw [negateSum_eq, negateSum_eq, BitVec.neg_inj]

/-- A byte and its negation cancel. -/
theorem add_negateSum (s : Byte) : s + negateSum s = 0 := by
  rw [negateSum_eq, add_neg_cancel]

/-- The negation is the only byte that brings the sum to zero. -/
theorem negateSum_eq_iff (s c : Byte) : negateSum s = c ↔ (s.toNat + c.toNat) % 256 = 0 := by
  rw [negateSum_eq, neg_eq_iff_add_eq_zero, ← BitVec.toNat_inj, BitVec.toNat_add]
  rfl

/-- A fixed point is a byte whose double is 0 or 256. -/
theorem negateSum_eq_self_iff (s : Byte) : negateSum s = s ↔ s = 0x00 ∨ s = 0x80 := by
  have hzero : s = 0x00 ↔ s.toNat = 0 := BitVec.toNat_inj.symm
  have hhalf : s = 0x80 ↔ s.toNat = 128 := BitVec.toNat_inj.symm
  rw [negateSum_eq_iff, hzero, hhalf]
  omega

/-- What `CS.NEG` answers in its low byte is the negated `SUM`, and nothing else. -/
theorem exec_csNeg_lowByte_iff (s : State) (c : Byte) :
    (∃ t r, exec .csNeg s = .next t ∧ t.rsp = some r ∧ lowByte r = c) ↔ negateSum s.sum = c := by
  constructor
  · rintro ⟨t, r, ht, hr, rfl⟩
    cases ht
    cases hr
    exact (lowByte_zeroExtend16 _).symm
  · intro hc
    exact ⟨_, _, exec_csNeg s, rfl, (lowByte_zeroExtend16 _).trans hc⟩

/-! ### Changed addends (R58) -/

theorem sumBytes_inj_at (pre post : List Byte) {b b' : Byte} :
    sumBytes (pre ++ b :: post) = sumBytes (pre ++ b' :: post) ↔ b = b' := by
  simp only [sumBytes_append, sumBytes_cons, BitVec.add_right_inj, BitVec.add_left_inj]

/-- What one addend gains and another loses leaves the sum. -/
theorem sumBytes_add_sub (pre mid post : List Byte) (b b' d : Byte) :
    sumBytes (pre ++ (b + d) :: (mid ++ (b' - d) :: post)) = sumBytes (pre ++ b :: (mid ++ b' :: post)) := by
  simp only [sumBytes_append, sumBytes_cons]
  abel

/-- Settles O41: negation is injective, so a checksum changes exactly when the sum under it does. -/
theorem checksumIsTheOnlyBalancingByte : Obligations.ChecksumIsTheOnlyBalancingByte :=
  ⟨fun s c => (exec_csNeg_lowByte_iff s c).trans (negateSum_eq_iff s.sum c), negateSum_negateSum, negateSum_eq_self_iff,
    fun pre post _ _ hne heq => hne ((sumBytes_inj_at pre post).mp (negateSum_inj.mp heq)),
    fun pre mid post b b' d => (sumBytes_add_sub pre mid post b b' d).symm⟩

/-! ### The sum of a record (R38, R59) -/

theorem makeRecord_checksum (a : Word) (ty : Byte) (data : List Byte) :
    (makeRecord a ty data).checksum = negateSum (sumBytes (makeRecord a ty data).fields) := rfl

/-- A record with the checksum of its own fields sums to zero. -/
theorem Record.sum_mod_eq_zero {r : Record} (h : r.checksum = negateSum (sumBytes r.fields)) :
    ((r.fields ++ [r.checksum]).map BitVec.toNat).sum % 256 = 0 := by
  have hsum : sumBytes (r.fields ++ [r.checksum]) = 0 := by
    rw [sumBytes_append, sumBytes_cons, sumBytes_nil, add_zero, h, add_negateSum]
  rw [← toNat_sumBytes, hsum]
  rfl

/-- Every record of an encode bears the checksum of its own fields. -/
theorem checksum_of_mem_encodeRecords {bytes : List Byte} {origin : Word} {c : Nat} {r : Record}
    (hr : r ∈ encodeRecords bytes origin c) : r.checksum = negateSum (sumBytes r.fields) := by
  rw [encodeRecords, dataRecords, List.mem_append, List.mem_map, List.mem_singleton] at hr
  obtain ⟨j, -, rfl⟩ | rfl := hr
  · exact makeRecord_checksum ..
  · exact makeRecord_checksum ..

/-- Settles O50: each record bears the negation of the sum of its fields, which cancels that sum. -/
theorem everyRecordSumsToZero : Obligations.EveryRecordSumsToZero :=
  fun _ _ _ _ hr => Record.sum_mod_eq_zero (checksum_of_mem_encodeRecords hr)

/-! ### Illegal operand fields (R33, R83) -/

/-- A word of a command without an operand is illegal in every state when its `ARG` is not zero. -/
theorem runCommand_of_argField_ne_zero {w : Command}
    (hop : (opField w).toNat = 0x2 ∨ (opField w).toNat = 0x4 ∨ (opField w).toNat = 0x6) (harg : argField w ≠ 0)
    (x : HostName) (s : State) : runCommand w x s = .fault (.illegalCommand w) :=
  runCommand_of_isLegal_eq_false ((illegalWordsAreThoseListed w).mpr (.inr (.inr (.inl ⟨hop, harg⟩)))) x s

/-- A word of a byte command is illegal in every state when its `ARG[15:8]` is not zero. -/
theorem runCommand_of_argHigh_ne_zero {w : Command} (hop : (opField w).toNat = 0x5 ∨ (opField w).toNat = 0x7)
    (hhigh : argHigh w ≠ 0) (x : HostName) (s : State) : runCommand w x s = .fault (.illegalCommand w) :=
  runCommand_of_isLegal_eq_false ((illegalWordsAreThoseListed w).mpr (.inr (.inr (.inr ⟨hop, hhigh⟩)))) x s

/-! ### The three commands (R55 to R57) -/

/-- The byte operand is extended by zeros, to `ARG` and on to the whole word alike (R32). -/
theorem encode_csAdd (b : Byte) : encode (.csAdd b) = 0x50000 ||| b.setWidth 20 := by
  have harg : (b.setWidth 16).setWidth 20 = b.setWidth 20 := BitVec.setWidth_setWidth (by decide)
  rw [← harg]
  exact encode_eq_pattern_or_arg (.csAdd b)

/-- A word under the mask of `CS.ADD` has the fields of `CS.ADD` of its low byte. -/
theorem decode_of_csAdd_mask {w : Command} (h : w &&& 0xFFF00 = 0x50000) : decode w = .ok (.csAdd (argLow w)) :=
  decode_eq_ok_of_fields (opField_eq_opcode_of_mask (.csAdd 0) h)
    (argField_eq_argLow_of_selectedBy (i := .csAdd 0) (selectedBy_iff.mpr h) argField_byteMask)

/-- Settles O4: the next state is the state with zero written to `SUM`. -/
theorem csClrZeroesSum : Obligations.CsClrZeroesSum :=
  ⟨fun s => ⟨_, exec_csClr s, rfl, rfl, rfl, rfl, rfl⟩, rfl, fun _ => and_allOnes_eq_encode_iff (i := .csClr),
    fun _ x s hop harg => runCommand_of_argField_ne_zero (.inr (.inl (congrArg BitVec.toNat hop))) harg x s⟩

/-- Settles O5: the next state is the state with the adder's sum written to `SUM`. -/
theorem csAddAddsModulo256 : Obligations.CsAddAddsModulo256 :=
  ⟨fun b s => ⟨_, exec_csAdd b s, toNat_wrapAddSum s.sum b, wrapAddSum_eq_setWidth_add s.sum b, rfl, rfl, rfl⟩,
    encode_csAdd, fun _ => decode_of_csAdd_mask,
    fun _ x s hop hhigh => runCommand_of_argHigh_ne_zero (.inl (congrArg BitVec.toNat hop)) hhigh x s⟩

/-- Settles O6: the response is the negated `SUM` extended by zeros, in each form R57 gives it. -/
theorem csNegReturnsNegatedSum : Obligations.CsNegReturnsNegatedSum := by
  refine ⟨fun s => ⟨_, _, exec_csNeg s, rfl, highByte_zeroExtend16 _, ?_⟩, rfl,
    fun _ => and_allOnes_eq_encode_iff (i := .csNeg),
    fun _ x s hop harg => runCommand_of_argField_ne_zero (.inr (.inr (congrArg BitVec.toNat hop))) harg x s⟩
  rw [lowByte_zeroExtend16]
  exact ⟨toNat_negateSum_eq_and s.sum, toNat_negateSum s.sum, negateSum_eq_not_add_one s.sum,
    toNat_negateSum_eq_ite s.sum, rfl, rfl, rfl, rfl⟩

end Sys2Proof.Machine
end

section
/-! SUPPORT. Proofs of the statements of spec/43_hex_formatter.md: the nibble function (R60), `HX.BYTE` (R61) and the laws
of the formatter (R62, R63). The rules they need come first. -/

namespace Sys2Proof.Machine

/-! ### The nibble function and its inverse (R60, R62) -/

theorem toNat_hexchar_of_le {n : Nibble} (h : n.toNat ≤ 9) : (hexchar n).toNat = 0x30 + n.toNat := by
  rw [hexchar, if_pos h, BitVec.toNat_ofNat]
  omega

theorem toNat_hexchar_of_ge {n : Nibble} (h : 10 ≤ n.toNat) : (hexchar n).toNat = 0x41 + (n.toNat - 10) := by
  have hlt := n.isLt
  rw [hexchar, if_neg (by omega), BitVec.toNat_ofNat]
  omega

/-- The two ranges of codes are apart, so the inverse can tell a digit from a letter. -/
@[simp] theorem unhexchar_hexchar (n : Nibble) : unhexchar (hexchar n) = some n := by
  have hlt := n.isLt
  by_cases h : n.toNat ≤ 9
  · have hcode := toNat_hexchar_of_le h
    have hback : (hexchar n).toNat - 0x30 = n.toNat := by omega
    rw [unhexchar, if_pos (by omega), hback, BitVec.ofNat_toNat, BitVec.setWidth_eq]
  · have hcode := toNat_hexchar_of_ge (n := n) (by omega)
    have hback : (hexchar n).toNat - 0x37 = n.toNat := by omega
    rw [unhexchar, if_neg (by omega), if_pos (by omega), hback, BitVec.ofNat_toNat, BitVec.setWidth_eq]

theorem hexchar_injective : Function.Injective hexchar := fun n m h => by
  have hback := congrArg unhexchar h
  rwa [unhexchar_hexchar, unhexchar_hexchar, Option.some.injEq] at hback

/-- A character that the inverse reads as a digit is the character of that digit. -/
theorem hexchar_of_unhexchar {c : Byte} {n : Nibble} (h : unhexchar c = some n) : hexchar n = c := by
  unfold unhexchar at h
  apply BitVec.eq_of_toNat_eq
  split at h
  next hdigit =>
    cases h
    have hn : (BitVec.ofNat 4 (c.toNat - 0x30)).toNat = c.toNat - 0x30 := by rw [BitVec.toNat_ofNat]; omega
    rw [toNat_hexchar_of_le (by omega)]
    omega
  next =>
    split at h
    next hletter =>
      cases h
      have hn : (BitVec.ofNat 4 (c.toNat - 0x37)).toNat = c.toNat - 0x37 := by rw [BitVec.toNat_ofNat]; omega
      rw [toNat_hexchar_of_ge (by omega)]
      omega
    next => cases h

theorem unhexchar_eq_some_iff {c : Byte} {n : Nibble} : unhexchar c = some n ↔ hexchar n = c :=
  ⟨hexchar_of_unhexchar, fun h => h ▸ unhexchar_hexchar n⟩

/-- The inverse reads exactly the codes of the decimal digits and of the letters `A` to `F`. -/
theorem exists_unhexchar_eq_some_iff (c : Byte) :
    (∃ n, unhexchar c = some n) ↔ (0x30 ≤ c.toNat ∧ c.toNat ≤ 0x39) ∨ (0x41 ≤ c.toNat ∧ c.toNat ≤ 0x46) := by
  unfold unhexchar
  split
  next hdigit => exact iff_of_true ⟨_, rfl⟩ (.inl hdigit)
  next hdigit =>
    split
    next hletter => exact iff_of_true ⟨_, rfl⟩ (.inr hletter)
    next hletter => exact iff_of_false (by simp) (not_or.mpr ⟨hdigit, hletter⟩)

/-- Settles O8: the inverse of `hexchar` makes it injective and reads exactly the characters of its image. -/
theorem hexcharIsUppercaseDigit : Obligations.HexcharIsUppercaseDigit :=
  ⟨fun _ => toNat_hexchar_of_le, fun _ => toNat_hexchar_of_ge, fun _ _ h => hexchar_injective h,
    fun c => by simpa only [unhexchar_eq_some_iff] using exists_unhexchar_eq_some_iff c⟩

/-! ### The two characters of a byte (R61, R62) -/

theorem concatBytes_inj {x y x' y' : Byte} : concatBytes x y = concatBytes x' y' ↔ x = x' ∧ y = y' := by
  constructor
  · intro h
    have hhigh := congrArg highByte h
    have hlow := congrArg lowByte h
    rw [highByte_concatBytes, highByte_concatBytes] at hhigh
    rw [lowByte_concatBytes, lowByte_concatBytes] at hlow
    exact ⟨hhigh, hlow⟩
  · rintro ⟨rfl, rfl⟩
    rfl

/-- A byte is 16 times its high nibble plus its low nibble. -/
theorem toNat_eq_nibbles (b : Byte) : b.toNat = 16 * (highNibble b).toNat + (lowNibble b).toNat := by
  have hlt := b.isLt
  rw [highNibble, lowNibble, BitVec.extractLsb'_toNat, BitVec.extractLsb'_toNat, Nat.shiftRight_eq_div_pow,
    Nat.shiftRight_zero]
  omega

theorem unhexPair_hexchar (hi lo : Nibble) :
    unhexPair (hexchar hi) (hexchar lo) = some (BitVec.ofNat 8 (16 * hi.toNat + lo.toNat)) := by
  rw [unhexPair, unhexchar_hexchar, unhexchar_hexchar]

/-- The rule's inverse reads a byte back from its rendering (R62). -/
theorem unhexPair_hexchar_nibbles (b : Byte) :
    unhexPair (hexchar (highNibble b)) (hexchar (lowNibble b)) = some b := by
  rw [unhexPair_hexchar, ← toNat_eq_nibbles, BitVec.ofNat_toNat, BitVec.setWidth_eq]

/-- A rendering determines its byte, since the inverse reads both bytes from it. -/
theorem eq_of_concatBytes_hexchar_eq {b b' : Byte}
    (h : concatBytes (hexchar (highNibble b)) (hexchar (lowNibble b)) =
      concatBytes (hexchar (highNibble b')) (hexchar (lowNibble b'))) : b = b' := by
  obtain ⟨hhigh, hlow⟩ := concatBytes_inj.mp h
  have hread := unhexPair_hexchar_nibbles b
  rw [hhigh, hlow, unhexPair_hexchar_nibbles] at hread
  exact (Option.some.inj hread).symm

theorem mem_hexCodes_of_mem_hexPair {b c : Byte} (h : c ∈ hexPair b) : c ∈ hexCodes := by
  rw [hexPair, List.mem_pair] at h
  obtain rfl | rfl := h
  · exact hexchar_mem_hexCodes _
  · exact hexchar_mem_hexCodes _

/-- Settles O42: equal responses are equal renderings, and the inverse reads one byte from a rendering. -/
theorem hexPairsDetermineTheirByte : Obligations.HexPairsDetermineTheirByte := by
  refine ⟨fun b b' s s' t t' ht ht' hrsp => ?_, unhexPair_hexchar_nibbles, fun _ _ => mem_hexCodes_of_mem_hexPair,
    by decide, by decide⟩
  cases ht
  cases ht'
  exact eq_of_concatBytes_hexchar_eq (Option.some.inj hrsp)

/-! ### The command (R61) -/

/-- Extending the operand by zeros to `ARG` and then to the word is extending it to the word (R32). -/
theorem encode_hxByte (b : Byte) : encode (.hxByte b) = 0x70000 ||| b.setWidth 20 :=
  (encode_eq_pattern_or_arg (.hxByte b)).trans (congrArg _ (BitVec.setWidth_setWidth (by decide)))

theorem decode_of_hxByte_mask {w : Command} (h : w &&& 0xFFF00 = 0x70000) : decode w = .ok (.hxByte (argLow w)) :=
  decode_eq_ok_of_fields (opField_eq_opcode_of_mask (.hxByte 0) h)
    (argField_eq_argLow_of_selectedBy (i := .hxByte 0) (selectedBy_iff.mpr h) argField_byteMask)

/-- Settles O7: the next state is the state with the two characters as its response. -/
theorem hxByteReturnsTwoDigits : Obligations.HxByteReturnsTwoDigits :=
  ⟨fun b s => ⟨_, _, exec_hxByte b s, rfl, highByte_concatBytes .., lowByte_concatBytes .., rfl, rfl, rfl, rfl⟩,
    encode_hxByte, fun _ => decode_of_hxByte_mask,
    fun _ x s hop hhigh => runCommand_of_argHigh_ne_zero (.inr (congrArg BitVec.toNat hop)) hhigh x s⟩

/-! ### The four digits of an address (R23, R63) -/

/-- A nibble of a byte of an address is the nibble of the address at the sum of the two offsets. -/
theorem extractLsb'_nibble_byte (a : Word) {i j : Nat} (hi : i + 4 ≤ 8) :
    (a.extractLsb' j 8).extractLsb' i 4 = a.extractLsb' (j + i) 4 := by
  apply BitVec.eq_of_getLsbD_eq
  intro k hk
  have hbit : i + k < 8 := by omega
  simp [hk, hbit, Nat.add_assoc]

theorem highNibble_extractLsb' (a : Word) (j : Nat) : highNibble (a.extractLsb' j 8) = a.extractLsb' (j + 4) 4 :=
  extractLsb'_nibble_byte a (by decide)

theorem lowNibble_extractLsb' (a : Word) (j : Nat) : lowNibble (a.extractLsb' j 8) = a.extractLsb' j 4 :=
  extractLsb'_nibble_byte a (by decide)

/-- Settles O43: each command answers the two nibbles of its half of the address. -/
theorem addressIsFourDigits : Obligations.AddressIsFourDigits := by
  intro a s
  rw [responses_cons (exec_hxByte _ s), responses_cons (exec_hxByte _ _), responses_nil, State.respond_rsp,
    State.respond_rsp, highNibble_extractLsb', highNibble_extractLsb', lowNibble_extractLsb', lowNibble_extractLsb']

end Sys2Proof.Machine
end

section
/-! SUPPORT. Proofs of the statements of spec/44_record_sequences.md: the chunker (R69), the required properties of an
output (R71), the host's sequences `HEX2`, `FIELD`, `ENC.DATA`, `ENC.EOF` and `ENCODE` run to their ends (R65, R66, R68,
R70, R72), and the other orders of a record's commands (R67). The rules they need come first. -/

namespace Sys2Proof.Machine

/-! ### The chunks (R69) -/

/-- There is a chunk `j` exactly when its first byte is a byte of the input. -/
theorem lt_chunkCount_iff {c : Nat} (hc : 0 < c) (j n : Nat) : j < chunkCount c n ↔ j * c < n := by
  rw [chunkCount, Nat.lt_div_iff_mul_lt hc]
  omega

@[simp] theorem length_chunks (c : Nat) (bytes : List Byte) : (chunks c bytes).length = chunkCount c bytes.length := by
  rw [chunks, List.length_map, List.length_range]

theorem getElem?_chunks_eq_some_iff {c j : Nat} {bytes ch : List Byte} :
    (chunks c bytes)[j]? = some ch ↔ j < chunkCount c bytes.length ∧ chunkAt c bytes j = ch := by
  rw [chunks, List.getElem?_map, Option.map_eq_some_iff]
  constructor
  · rintro ⟨k, hk, rfl⟩
    obtain ⟨hj, rfl⟩ := List.getElem?_eq_some_iff.mp hk
    rw [List.length_range] at hj
    rw [List.getElem_range]
    exact ⟨hj, rfl⟩
  · rintro ⟨hj, rfl⟩
    exact ⟨j, List.getElem?_range hj, rfl⟩

theorem length_chunkAt (c : Nat) (bytes : List Byte) (j : Nat) :
    (chunkAt c bytes j).length = min c (bytes.length - j * c) := by
  rw [chunkAt, List.length_take, List.length_drop]

/-- No chunk is empty or longer than the chunk size. -/
theorem length_chunkAt_bounds {c j : Nat} {bytes : List Byte} (hc : 0 < c) (hj : j < chunkCount c bytes.length) :
    1 ≤ (chunkAt c bytes j).length ∧ (chunkAt c bytes j).length ≤ c := by
  rw [lt_chunkCount_iff hc] at hj
  rw [length_chunkAt]
  omega

/-- A chunk that another one follows is full. -/
theorem length_chunkAt_of_lt {c j : Nat} {bytes : List Byte} (hc : 0 < c) (hj : j + 1 < chunkCount c bytes.length) :
    (chunkAt c bytes j).length = c := by
  rw [lt_chunkCount_iff hc, Nat.succ_mul] at hj
  rw [length_chunkAt]
  omega

/-- The last chunk holds what is left over, or is full where nothing is. -/
theorem length_chunkAt_last {c j : Nat} {bytes : List Byte} (hc : 0 < c) (hj : j + 1 = chunkCount c bytes.length) :
    (chunkAt c bytes j).length = if bytes.length % c = 0 then c else bytes.length % c := by
  have hsplit : bytes.length / c * c + bytes.length % c = bytes.length := Nat.div_add_mod' _ c
  have hlt : bytes.length % c < c := Nat.mod_lt _ hc
  rw [chunkCount_eq hc] at hj
  rw [length_chunkAt]
  split at hj
  next hr =>
    rw [if_pos hr]
    rw [← show j + 1 = bytes.length / c from hj, Nat.succ_mul] at hsplit
    omega
  next hr =>
    rw [if_neg hr]
    rw [← Nat.succ.inj hj] at hsplit
    omega

/-- Chunk `j` ends before byte `(j + 1) * c`, or with the input. -/
theorem chunkAt_eq_take_min (c : Nat) (bytes : List Byte) (j : Nat) :
    chunkAt c bytes j = (bytes.drop (j * c)).take (min ((j + 1) * c) bytes.length - j * c) := by
  rw [chunkAt, List.take_eq_take_min, List.length_drop, Nat.succ_mul]
  congr 1
  omega

theorem flatten_chunks {c : Nat} (hc : 0 < c) (bytes : List Byte) : (chunks c bytes).flatten = bytes := by
  rw [chunks, ← List.flatMap_def, flatMap_chunkAt_range, List.take_of_length_le (le_chunkCount_mul hc _)]

/-- Settles O49: each chunk is a slice whose length follows from where it begins. -/
theorem chunksPartitionTheInput : Obligations.ChunksPartitionTheInput := by
  intro bytes c hc _
  refine ⟨(length_chunks c bytes).trans (chunkCount_eq hc _), flatten_chunks hc bytes, fun ch hch => ?_,
    fun j ch hch => ?_⟩
  · obtain ⟨j, hget⟩ := List.mem_iff_getElem?.mp hch
    obtain ⟨hj, rfl⟩ := getElem?_chunks_eq_some_iff.mp hget
    exact length_chunkAt_bounds hc hj
  · obtain ⟨-, rfl⟩ := getElem?_chunks_eq_some_iff.mp hch
    rw [length_chunks]
    exact ⟨chunkAt_eq_take_min c bytes j, length_chunkAt_of_lt hc, length_chunkAt_last hc⟩

/-! ### The records of an output (R71) -/

theorem mem_dataRecords_iff {bytes : List Byte} {origin : Word} {c : Nat} {r : Record} :
    r ∈ dataRecords bytes origin c ↔
      ∃ j < chunkCount c bytes.length, dataRecord (recordAddress origin c j) (chunkAt c bytes j) = r := by
  simp [dataRecords]

/-- A count of at most 255 data bytes stands in the record's 8 bits as it is. -/
theorem toNat_dataRecord_byteCount (a : Word) {data : List Byte} (h : data.length ≤ 255) :
    (dataRecord a data).byteCount.toNat = data.length :=
  Nat.mod_eq_of_lt (Nat.lt_succ_of_le h)

@[simp] theorem dataRecord_recordType (a : Word) (data : List Byte) : (dataRecord a data).recordType = 0x00 := rfl

theorem dataRecords_fields {bytes : List Byte} {origin : Word} {c : Nat} (hc : 1 ≤ c) (hc' : c ≤ 255) :
    ∀ r ∈ dataRecords bytes origin c,
      r.recordType = 0x00 ∧ r.byteCount.toNat = r.data.length ∧ 1 ≤ r.data.length := by
  intro r hr
  obtain ⟨j, hj, rfl⟩ := mem_dataRecords_iff.mp hr
  obtain ⟨hpos, hle⟩ := length_chunkAt_bounds hc hj
  exact ⟨rfl, toNat_dataRecord_byteCount _ (hle.trans hc'), hpos⟩

/-- The end-of-file record is the only one of its type. -/
theorem countP_eof_encodeRecords {bytes : List Byte} {origin : Word} {c : Nat} :
    (encodeRecords bytes origin c).countP (fun r => r.recordType == 0x01) = 1 := by
  have hdata : (dataRecords bytes origin c).countP (fun r => r.recordType == 0x01) = 0 := by
    rw [List.countP_eq_zero]
    intro r hr
    obtain ⟨j, -, rfl⟩ := mem_dataRecords_iff.mp hr
    rw [dataRecord_recordType]
    decide
  rw [encodeRecords, List.countP_append, hdata]
  rfl

/-- The counts and addresses of the data records depend on the length of the input only. -/
theorem map_byteCount_address_dataRecords (bytes : List Byte) (origin : Word) (c : Nat) :
    (dataRecords bytes origin c).map (fun r => (r.byteCount, r.address)) =
      (List.range (chunkCount c bytes.length)).map
        (fun j => (BitVec.ofNat 8 (min c (bytes.length - j * c)), recordAddress origin c j)) := by
  simp only [dataRecords, List.map_map, ← length_chunkAt]
  rfl

theorem map_address_dataRecords (bytes : List Byte) (origin : Word) (c : Nat) :
    (dataRecords bytes origin c).map Record.address =
      (List.range (chunkCount c bytes.length)).map (recordAddress origin c) := by
  rw [dataRecords, List.map_map]
  rfl

theorem encodeText_nil (origin : Word) {c : Nat} (hc : 0 < c) : encodeText [] origin c = eofRecord.line := by
  have hcount : chunkCount c 0 = 0 := by rw [chunkCount_eq hc, Nat.zero_div, Nat.zero_mod, if_pos rfl]
  simp [encodeText, encodeRecords, dataRecords, hcount]

/-- Settles O51: items 1 to 4 from the rules of the chunks and of the checksum, items 5 and 6 by evaluating what depends
on the length of the input only. -/
theorem encodeHasTheRequiredProperties : Obligations.EncodeHasTheRequiredProperties := by
  refine ⟨fun bytes origin c hc hc' => ⟨flatMap_data_dataRecords hc bytes origin, everyRecordSumsToZero bytes origin c,
    dataRecords_fields hc hc', List.getLast?_concat, countP_eof_encodeRecords, eofLineIsConstant.2⟩,
    fun bytes hlen => ?_, fun origin c hc _ => encodeText_nil origin hc, fun bytes hlen => ?_⟩
  · rw [map_address_dataRecords, hlen]
    decide
  · rw [map_byteCount_address_dataRecords, hlen]
    decide

/-! ### Runs of one action of the host (R8) -/

/-- Does the action present a command word? -/
def Action.isCommand : Action → Bool
  | .present _ _ => true
  | _            => false

theorem State.presentsCommand_of_queue {s : State} {act : Action} {q : List Action} (h : s.host.queue = act :: q) :
    s.presentsCommand = act.isCommand := by
  cases act <;> simp [State.presentsCommand, Action.isCommand, h]

theorem State.emitsChar_of_queue {s : State} {act : Action} {q : List Action} (h : s.host.queue = act :: q) :
    s.emitsChar = act.isEmit := by
  cases act <;> simp [State.emitsChar, Action.isEmit, h]

/-- The step of one action counts the action itself. -/
theorem RunsTo.of_action {s t : State} {act : Action} {q : List Action} (hq : s.host.queue = act :: q)
    (h : step s = .next t) : RunsTo s t (if act.isCommand then 1 else 0) (if act.isEmit then 1 else 0) := by
  rw [← State.presentsCommand_of_queue hq, ← State.emitsChar_of_queue hq]
  exact RunsTo.of_step h

theorem runsTo_command {s u : State} {p : Presented} {x : HostName} {q : List Action} {i : Instr}
    (hq : s.host.queue = .present p x :: q) (hp : p.cmd s.host = encode i)
    (hu : exec i (s.withQueue q) = .next u) : RunsTo s (takeResponse i x u) 1 0 :=
  .of_action hq (StepsTo.command hq (by rw [hp, decode_encode]) hu).step_eq

theorem runsTo_emit {s : State} {c : ByteRef} {q : List Action} (hq : s.host.queue = .emit c :: q) :
    RunsTo s ((s.withQueue q).emitChar (c.value s.host)).noResponse 0 1 :=
  .of_action hq (step_emit hq)

/-! ### `HEX2` and `FIELD` (R65) -/

/-- The host holds a pair of digits of `b` under its own name and has emitted them; the step returned no response. -/
def State.printed (s : State) (b : Byte) : State :=
  { s with rsp := none, host := { s.host with
      sink := s.host.sink ++ hexPair b,
      chars := bindName ownName (hexchar (highNibble b), hexchar (lowNibble b)) s.host.chars } }

/-- Holding a response of `HX.BYTE b` and emitting its two halves prints `b`. -/
theorem State.holdChars_emitChar_emitChar (s : State) (b : Byte) {r : Word}
    (hr : r = concatBytes (hexchar (highNibble b)) (hexchar (lowNibble b))) :
    (((((s.respond r).holdChars ownName r).emitChar (highByte r)).noResponse).emitChar (lowByte r)).noResponse =
      s.printed b := by
  subst hr
  simp [State.printed, State.respond, State.holdChars, State.emitChar, State.noResponse, hexPair]

/-- `HEX2 b` is expanded, renders `b`, and emits the two characters of the response it took. -/
theorem runsTo_hex2 {s : State} {b : ByteRef} {q : List Action} (hq : s.host.queue = .hex2 b :: q) :
    RunsTo s ((s.withQueue q).printed (b.value s.host)) 1 2 := by
  have hexpand := RunsTo.of_action hq (StepsTo.hex2 hq).step_eq
  have hrender := hexpand.trans (runsTo_command rfl rfl (exec_hxByte (b.value s.host) _))
  have hfirst := hrender.trans (runsTo_emit rfl)
  have hsecond := hfirst.trans (runsTo_emit rfl)
  rw [← State.holdChars_emitChar_emitChar _ _ rfl]
  exact hsecond

/-- Settles O53, by the run of `HEX2`. -/
theorem hex2EmitsTheTwoDigits : Obligations.Hex2EmitsTheTwoDigits :=
  fun _ _ _ hq => ⟨_, runsTo_hex2 hq, rfl, rfl, rfl, rfl⟩

/-- `FIELD b` is expanded, adds `b`, and prints it. -/
theorem runsTo_field {s : State} {b : ByteRef} {q : List Action} (hq : s.host.queue = .field b :: q) :
    RunsTo s (((s.withQueue q).writeSum (wrapAddSum s.sum (b.value s.host))).printed (b.value s.host)) 2 2 := by
  have hexpand := RunsTo.of_action hq (StepsTo.field hq).step_eq
  have hadd := hexpand.trans (runsTo_command rfl rfl (exec_csAdd (b.value s.host) _))
  exact hadd.trans (runsTo_hex2 rfl)

/-- Settles O54, by the run of `FIELD`. -/
theorem fieldSumsWhatItPrints : Obligations.FieldSumsWhatItPrints :=
  fun _ _ _ hq => ⟨_, runsTo_field hq, rfl, rfl, rfl, rfl⟩

/-! ### Runs that print text -/

/-- `s` runs to `t` in the given number of commands and one emit for each character of `text`. At the end the host has
come to `q` in its sequence, has appended `text`, and still has noted the same position in the line-sink. -/
structure Emits (s t : State) (q : List Action) (text : List Byte) (commands : Nat) : Prop where
  run         : RunsTo s t commands text.length
  queue       : t.host.queue = q
  sink        : t.host.sink = s.host.sink ++ text
  outputStart : t.host.outputStart = s.host.outputStart

/-- A run that, besides, keeps `ADDR`, the addresses held, and every name but the expansions' own. -/
structure Prints (s t : State) (q : List Action) (text : List Byte) (commands : Nat) : Prop
    extends Emits s t q text commands where
  addr  : t.addr = s.addr
  addrs : t.host.addrs = s.host.addrs
  names : ∀ x, x ≠ ownName → t.host.checksumOf x = s.host.checksumOf x ∧ t.host.charsOf x = s.host.charsOf x

section
variable {s t u : State} {q q' actions : List Action} {text text' : List Byte} {c c' : Nat} {act : Action}

theorem Emits.refl (hq : s.host.queue = q) : Emits s s q [] 0 := ⟨.refl s, hq, (List.append_nil _).symm, rfl⟩

theorem Emits.trans (h : Emits s t q text c) (h' : Emits t u q' text' c') :
    Emits s u q' (text ++ text') (c + c') where
  run := by rw [List.length_append]; exact h.run.trans h'.run
  queue := h'.queue
  sink := by rw [h'.sink, h.sink, List.append_assoc]
  outputStart := h'.outputStart.trans h.outputStart

theorem Prints.refl (hq : s.host.queue = q) : Prints s s q [] 0 := ⟨.refl hq, rfl, rfl, fun _ _ => ⟨rfl, rfl⟩⟩

theorem Prints.trans (h : Prints s t q text c) (h' : Prints t u q' text' c') :
    Prints s u q' (text ++ text') (c + c') where
  toEmits := h.toEmits.trans h'.toEmits
  addr := h'.addr.trans h.addr
  addrs := h'.addrs.trans h.addrs
  names x hx := ⟨(h'.names x hx).1.trans (h.names x hx).1, (h'.names x hx).2.trans (h.names x hx).2⟩

/-- An action that is only expanded is no command and no emit. -/
theorem RunsTo.of_expansion {e : Nat} (hq : s.host.queue = act :: q) (hact : act.isCommand = false ∧ act.isEmit = false)
    (hstep : step s = .next t) (h : RunsTo t u c e) : RunsTo s u c e := by
  have hrun := RunsTo.of_action hq hstep
  rw [hact.1, hact.2] at hrun
  simpa using hrun.trans h

/-- An action that is only expanded prints what its expansion prints. -/
theorem Prints.of_expansion (hq : s.host.queue = act :: q) (hact : act.isCommand = false ∧ act.isEmit = false)
    (hstep : step s = .next ((s.withQueue q).expandInto actions))
    (h : Prints ((s.withQueue q).expandInto actions) t q' text c) : Prints s t q' text c :=
  ⟨⟨h.run.of_expansion hq hact hstep, h.queue, h.sink, h.outputStart⟩, h.addr, h.addrs, h.names⟩

/-- A command appends nothing, whatever response is taken. -/
theorem emits_command {p : Presented} {x : HostName} {i : Instr} (hq : s.host.queue = .present p x :: q)
    (hp : p.cmd s.host = encode i) (hu : exec i (s.withQueue q) = .next u) :
    Emits s (takeResponse i x u) q [] 1 := by
  obtain ⟨hqueue, hsink, hstart⟩ := takeResponse_host i x u
  rw [exec_host hu] at hqueue hsink hstart
  exact ⟨runsTo_command hq hp hu, hqueue, hsink.trans (List.append_nil _).symm, hstart⟩

theorem emits_atLoad {a : Word} {x : HostName} (hq : s.host.queue = .present (.instr (.atLoad a)) x :: q) :
    ∃ t, Emits s t q [] 1 ∧ t.addr = a :=
  ⟨_, emits_command hq rfl (exec_atLoad a _), rfl⟩

theorem emits_atCur {x : HostName} (hq : s.host.queue = .present (.instr .atCur) x :: q) :
    ∃ t, Emits s t q [] 1 ∧ t.addr = s.addr ∧ t.host.addrOf x = s.addr :=
  ⟨_, emits_command hq rfl (exec_atCur _), rfl, State.holdAddr_addrOf ..⟩

theorem emits_atAdv {n : Nat} {x : HostName} (hq : s.host.queue = .present (.atAdv n) x :: q) :
    ∃ t, Emits s t q [] 1 ∧ t.addr = wrapAddAddr s.addr (advanceOperand n) :=
  ⟨_, emits_command hq rfl (exec_atAdv _ _), rfl⟩

theorem emits_emit {c : ByteRef} (hq : s.host.queue = .emit c :: q) :
    Emits s ((s.withQueue q).emitChar (c.value s.host)).noResponse q [c.value s.host] 0 :=
  ⟨runsTo_emit hq, rfl, rfl, rfl⟩

theorem prints_emit {c : ByteRef} (hq : s.host.queue = .emit c :: q) :
    ∃ t, Prints s t q [c.value s.host] 0 ∧ t.sum = s.sum :=
  ⟨_, ⟨emits_emit hq, rfl, rfl, fun _ _ => ⟨rfl, rfl⟩⟩, rfl⟩

theorem prints_csClr {x : HostName} (hq : s.host.queue = .present (.instr .csClr) x :: q) :
    ∃ t, Prints s t q [] 1 ∧ t.sum = 0 :=
  ⟨_, ⟨emits_command hq rfl (exec_csClr _), rfl, rfl, fun _ _ => ⟨rfl, rfl⟩⟩, rfl⟩

theorem prints_csNeg (hq : s.host.queue = .present (.instr .csNeg) ownName :: q) :
    ∃ t, Prints s t q [] 1 ∧ t.sum = s.sum ∧ t.host.checksumOf ownName = negateSum s.sum :=
  ⟨_, ⟨emits_command hq rfl (exec_csNeg _), rfl, rfl,
    fun _ hx => ⟨State.holdChecksum_checksumOf_of_ne _ hx _, rfl⟩⟩, rfl,
    (State.holdChecksum_checksumOf ..).trans (lowByte_zeroExtend16 _)⟩

theorem prints_hex2 {b : ByteRef} (hq : s.host.queue = .hex2 b :: q) :
    ∃ t, Prints s t q (hexPair (b.value s.host)) 1 ∧ t.sum = s.sum :=
  ⟨_, ⟨⟨runsTo_hex2 hq, rfl, rfl, rfl⟩, rfl, rfl, fun _ hx => ⟨rfl, readName_bindName_of_ne hx ..⟩⟩, rfl⟩

theorem prints_field {b : ByteRef} (hq : s.host.queue = .field b :: q) :
    ∃ t, Prints s t q (hexPair (b.value s.host)) 2 ∧ t.sum = s.sum + b.value s.host :=
  ⟨_, ⟨⟨runsTo_field hq, rfl, rfl, rfl⟩, rfl, rfl, fun _ hx => ⟨rfl, readName_bindName_of_ne hx ..⟩⟩,
    wrapAddSum_eq ..⟩

end

/-! ### The sequence of one record (R66, R68) -/

/-- An operand of the kind that the fields of a record have: a number, or a half of a held address. -/
def ByteRef.isFieldOperand : ByteRef → Bool
  | .lit _ | .addrHi _ | .addrLo _     => true
  | .checksum _ | .first _ | .second _ => false

/-- A field operand depends on the addresses held only. -/
theorem ByteRef.value_congr_addrs {b : ByteRef} (hb : b.isFieldOperand = true) {h h' : Sequencer}
    (haddrs : h.addrs = h'.addrs) : b.value h = b.value h' := by
  cases b with
  | lit => rfl
  | addrHi | addrLo => simp only [ByteRef.value, Sequencer.addrOf, haddrs]
  | checksum | first | second => cases hb

@[simp] theorem ByteRef.value_lit (b : Byte) (h : Sequencer) : (ByteRef.lit b).value h = b := rfl

/-- The bytes that a list of operands stands for. -/
def byteValues (h : Sequencer) (bs : List ByteRef) : List Byte := bs.map fun b => b.value h

theorem byteValues_congr_addrs {bs : List ByteRef} (hbs : ∀ b ∈ bs, b.isFieldOperand = true) {h h' : Sequencer}
    (haddrs : h.addrs = h'.addrs) : byteValues h bs = byteValues h' bs :=
  List.map_congr_left fun b hb => ByteRef.value_congr_addrs (hbs b hb) haddrs

/-- The fields one after another: each is added and printed, and none of that changes what the next one stands for. -/
theorem prints_fields {fields : List ByteRef} (hfields : ∀ b ∈ fields, b.isFieldOperand = true) {s : State}
    {q : List Action} (hq : s.host.queue = fields.map .field ++ q) :
    ∃ t, Prints s t q ((byteValues s.host fields).flatMap hexPair) (2 * fields.length) ∧
      t.sum = s.sum + sumBytes (byteValues s.host fields) := by
  induction fields generalizing s with
  | nil => exact ⟨s, .refl hq, (add_zero _).symm⟩
  | cons b bs ih =>
    obtain ⟨-, hbs⟩ := List.forall_mem_cons.mp hfields
    obtain ⟨u, hfirst, hufirst⟩ := prints_field hq
    obtain ⟨t, hrest, htsum⟩ := ih hbs hfirst.queue
    rw [byteValues_congr_addrs hbs hfirst.addrs] at hrest htsum
    refine ⟨t, ?_, ?_⟩
    · have hall := hfirst.trans hrest
      rwa [Nat.add_comm] at hall
    · rw [htsum, hufirst, BitVec.add_assoc, byteValues, byteValues, List.map_cons, sumBytes_cons]

/-- The characters of a record whose fields have the given bytes (R37, R66, R68). -/
def recordText (fields : List Byte) : List Byte :=
  [colonChar] ++ fields.flatMap hexPair ++ hexPair (negateSum (sumBytes fields)) ++ [newlineChar]

theorem makeRecord_line (a : Word) (ty : Byte) (data : List Byte) :
    (makeRecord a ty data).line = recordText (fieldList (BitVec.ofNat 8 data.length) a ty data) := by
  simp [makeRecord, Record.line, recordText, fieldList]

/-- The sequence of a record prints its fields and, after them, the checksum of what it added. -/
theorem prints_recordExpansion {fields : List ByteRef} (hfields : ∀ b ∈ fields, b.isFieldOperand = true) {s : State}
    {q : List Action} (hq : s.host.queue = recordExpansion fields ++ q) :
    ∃ t, Prints s t q (recordText (byteValues s.host fields)) (2 * fields.length + 3) ∧
      t.sum = sumBytes (byteValues s.host fields) := by
  rw [recordExpansion, List.append_assoc, List.append_assoc] at hq
  obtain ⟨s₁, hcolon, -⟩ := prints_emit hq
  obtain ⟨s₂, hclear, hzero⟩ := prints_csClr hcolon.queue
  obtain ⟨s₃, hprint, hsum⟩ := prints_fields hfields hclear.queue
  obtain ⟨s₄, hneg, hsum₄, hchecksum⟩ := prints_csNeg hprint.queue
  obtain ⟨s₅, hhex, hsum₅⟩ := prints_hex2 hneg.queue
  obtain ⟨t, hline, hsumt⟩ := prints_emit hhex.queue
  rw [hzero, zero_add, byteValues_congr_addrs hfields (hcolon.trans hclear).addrs] at hsum
  rw [byteValues_congr_addrs hfields (hcolon.trans hclear).addrs] at hprint
  rw [show ByteRef.value (.checksum ownName) s₄.host = _ from hchecksum, hsum] at hhex
  have hall := (((hcolon.trans hclear).trans hprint).trans (hneg.trans hhex)).trans hline
  rw [show 0 + 1 + 2 * fields.length + (1 + 1) + 0 = 2 * fields.length + 3 by omega] at hall
  exact ⟨t, hall, by rw [hsumt, hsum₅, hsum₄, hsum]⟩

/-! ### `ENC.DATA` and `ENC.EOF` (R66, R68) -/

theorem isFieldOperand_of_mem_dataFields {a : AddrRef} {data : List Byte} :
    ∀ b ∈ dataFields a data, b.isFieldOperand = true := by
  cases a <;> simp [dataFields, AddrRef.hi, AddrRef.lo, ByteRef.isFieldOperand]

@[simp] theorem length_dataFields (a : AddrRef) (data : List Byte) : (dataFields a data).length = data.length + 4 := by
  simp [dataFields]

/-- The fields of `ENC.DATA` stand for the field list of its record. -/
theorem byteValues_dataFields (h : Sequencer) (a : AddrRef) (data : List Byte) :
    byteValues h (dataFields a data) = fieldList (BitVec.ofNat 8 data.length) (a.value h) 0x00 data := by
  simp [byteValues, dataFields, fieldList, Function.comp_def]

/-- `ENC.DATA` prints the line of its record. -/
theorem prints_encData {s : State} {a : AddrRef} {data : List Byte} {q : List Action}
    (hq : s.host.queue = .encData a data :: q) (hok : dataLengthOk data = true) :
    ∃ t, Prints s t q (dataRecord (a.value s.host) data).line (2 * data.length + 11) ∧
      t.sum = sumBytes (fieldList (BitVec.ofNat 8 data.length) (a.value s.host) 0x00 data) := by
  obtain ⟨t, hprint, hsum⟩ := prints_recordExpansion (isFieldOperand_of_mem_dataFields (a := a) (data := data))
    (s := (s.withQueue q).expandInto (dataExpansion a data)) (q := q) rfl
  have hvalues : byteValues ((s.withQueue q).expandInto (dataExpansion a data)).host (dataFields a data) =
      fieldList (BitVec.ofNat 8 data.length) (a.value s.host) 0x00 data :=
    (byteValues_congr_addrs isFieldOperand_of_mem_dataFields rfl).trans (byteValues_dataFields s.host a data)
  rw [hvalues, length_dataFields] at hprint
  rw [hvalues] at hsum
  rw [dataRecord, makeRecord_line]
  exact ⟨t, .of_expansion hq ⟨rfl, rfl⟩ (StepsTo.encData hq hok).step_eq hprint, hsum⟩

/-- `ENC.EOF` prints the end-of-file line. -/
theorem prints_encEof {s : State} {q : List Action} (hq : s.host.queue = .encEof :: q) :
    ∃ t, Prints s t q eofRecord.line 11 ∧ t.sum = 0x01 := by
  obtain ⟨t, hprint, hsum⟩ := prints_recordExpansion (fields := eofFields) (by decide)
    (s := (s.withQueue q).expandInto eofExpansion) (q := q) rfl
  rw [eofRecord, makeRecord_line]
  exact ⟨t, .of_expansion hq ⟨rfl, rfl⟩ (StepsTo.encEof hq).step_eq hprint, hsum⟩

/-- The sequence of `ENC.DATA` as R66 writes it. -/
theorem dataExpansion_append (a : AddrRef) (data : List Byte) (q : List Action) :
    dataExpansion a data ++ q = .emit (.lit 0x3A) :: .present (.instr .csClr) ownName ::
      .field (.lit (BitVec.ofNat 8 data.length)) :: .field a.hi :: .field a.lo :: .field (.lit 0x00) ::
      (data.map (fun d => .field (.lit d)) ++
        .present (.instr .csNeg) ownName :: .hex2 (.checksum ownName) :: .emit (.lit 0x0A) :: q) := by
  simp [dataExpansion, recordExpansion, dataFields, colonChar, newlineChar]

/-- The sum of a field list as numbers, the count reduced with the rest. -/
theorem toNat_sumBytes_fieldList (a : Word) (data : List Byte) :
    (sumBytes (fieldList (BitVec.ofNat 8 data.length) a 0x00 data)).toNat =
      (data.length + (highByte a).toNat + (lowByte a).toNat + (data.map BitVec.toNat).sum) % 256 := by
  rw [toNat_sumBytes]
  simp only [fieldList, List.cons_append, List.nil_append, List.map_cons, List.sum_cons, BitVec.toNat_ofNat,
    BitVec.ofNat_eq_ofNat]
  omega

/-- Settles O55: the sequence is the rule's, and its run prints the line of the record. -/
theorem encDataEmitsItsRecordLine : Obligations.EncDataEmitsItsRecordLine := by
  intro s a data q hq
  refine ⟨fun hpos hle => ⟨?_, ?_⟩, fun hbad => ?_⟩
  · rw [(StepsTo.encData hq ((dataLengthOk_iff data).mpr ⟨hpos, hle⟩)).step_eq, ← dataExpansion_append]
    rfl
  · obtain ⟨t, hprint, hsum⟩ := prints_encData hq ((dataLengthOk_iff data).mpr ⟨hpos, hle⟩)
    refine ⟨t, ?_, hprint.addr, ?_, hprint.queue, ?_, hprint.addrs, hprint.outputStart, hprint.names⟩
    · have hrun := hprint.run
      rwa [Record.length_line, dataRecord_data, Nat.add_comm 12] at hrun
    · rw [hsum, toNat_sumBytes_fieldList]
    · rw [hprint.sink, hsum]
      rfl
  · have hno : ¬ dataLengthOk data = true := by rw [dataLengthOk_iff]; omega
    rw [step_cons s _ q hq, perform, if_neg hno, raise]

/-- Settles O56: the sequence is the rule's, and its run prints the constant line. -/
theorem encEofEmitsTheEofLine : Obligations.EncEofEmitsTheEofLine := by
  intro s q hq
  obtain ⟨t, hprint, hsum⟩ := prints_encEof hq
  refine ⟨(StepsTo.encEof hq).step_eq, t, hprint.run, hprint.addr, hsum, hprint.queue, ?_, hprint.addrs,
    hprint.outputStart, hprint.names⟩
  rw [hprint.sink, eofLineIsConstant.2]

/-! ### `ENCODE` (R70) -/

/-- An advance of `m` bytes from the target address of byte `n` is the target address of byte `n + m` (R53). -/
theorem wrapAddAddr_targetAddress (a : Word) (n m : Nat) :
    wrapAddAddr (targetAddress a n) (advanceOperand m) = targetAddress a (n + m) := by
  apply BitVec.eq_of_toNat_eq
  rw [toNat_wrapAddAddr_advanceOperand, toNat_targetAddress, toNat_targetAddress, Nat.mod_add_mod, Nat.add_assoc]

/-- One turn of the loop: the record at the address before the advance. -/
theorem emits_chunkExpansion {s : State} {ch : List Byte} {q : List Action} (hok : dataLengthOk ch = true)
    (hq : s.host.queue = chunkExpansion ch ++ q) :
    ∃ t, Emits s t q (dataRecord s.addr ch).line (2 * ch.length + 13) ∧
      t.addr = wrapAddAddr s.addr (advanceOperand ch.length) := by
  obtain ⟨s₁, hcur, haddr, hheld⟩ := emits_atCur hq
  obtain ⟨s₂, hprint, -⟩ := prints_encData hcur.queue hok
  obtain ⟨t, hadv, hend⟩ := emits_atAdv hprint.queue
  rw [show AddrRef.value (.held ownName) s₁.host = s.addr from hheld] at hprint
  have hall := (hcur.trans hprint.toEmits).trans hadv
  rw [List.nil_append, List.append_nil, show 1 + (2 * ch.length + 11) + 1 = 2 * ch.length + 13 by omega] at hall
  exact ⟨t, hall, by rw [hend, hprint.addr, haddr]⟩

/-- The bytes of the first `k` chunks and of the next one are those of the first `k + 1`. -/
theorem min_add_length_chunkAt (c : Nat) (bytes : List Byte) (k : Nat) :
    min (k * c) bytes.length + (chunkAt c bytes k).length = min ((k + 1) * c) bytes.length := by
  rw [length_chunkAt, Nat.succ_mul]
  omega

/-- The loop over the first `k` chunks: the address then stands at the byte after them, where the next chunk begins. -/
theorem emits_chunkExpansions {c : Nat} {bytes : List Byte} (hc : 0 < c) (hc' : c ≤ 255) {s : State} {k : Nat}
    {q : List Action} (hk : k ≤ chunkCount c bytes.length)
    (hq : s.host.queue = ((List.range k).map (chunkAt c bytes)).flatMap chunkExpansion ++ q) :
    ∃ t, Emits s t q (((List.range k).map
        fun j => dataRecord (recordAddress s.addr c j) (chunkAt c bytes j)).flatMap Record.line)
      (2 * min (k * c) bytes.length + 13 * k) ∧ t.addr = targetAddress s.addr (min (k * c) bytes.length) := by
  induction k generalizing q with
  | zero =>
    rw [Nat.zero_mul, Nat.zero_min]
    exact ⟨s, .refl hq, BitVec.eq_of_toNat_eq (by rw [toNat_targetAddress]; omega)⟩
  | succ k ih =>
    rw [List.range_succ, List.map_append, List.flatMap_append, List.append_assoc] at hq
    obtain ⟨u, hfirst, haddr⟩ := ih (by omega) hq
    obtain ⟨hpos, hle⟩ := length_chunkAt_bounds hc hk
    obtain ⟨t, hturn, hend⟩ := emits_chunkExpansion (ch := chunkAt c bytes k) (q := q)
      ((dataLengthOk_iff _).mpr ⟨hpos, hle.trans hc'⟩) (by simpa using hfirst.queue)
    have hbegin : u.addr = recordAddress s.addr c k := by
      rw [haddr, min_eq_left ((lt_chunkCount_iff hc k _).mp hk).le]
      rfl
    have hbytes := min_add_length_chunkAt c bytes k
    rw [hbegin] at hturn
    refine ⟨t, ?_, by rw [hend, haddr, wrapAddAddr_targetAddress, hbytes]⟩
    have hall := hfirst.trans hturn
    rw [show 2 * min (k * c) bytes.length + 13 * k + (2 * (chunkAt c bytes k).length + 13) =
      2 * min ((k + 1) * c) bytes.length + 13 * (k + 1) by omega] at hall
    simpa [List.range_succ] using hall

/-- The step of `ENCODE` where its precondition holds: it notes the position and plans the driver's sequence. -/
theorem step_encode {s : State} {bytes : List Byte} {origin : Option Word} {chunk : Option Byte} {q : List Action}
    (hq : s.host.queue = .encode bytes origin chunk :: q) (hchunk : chunk.getD 16 ≠ 0) :
    step s = .next ((s.withQueue q).noteOutputStart.expandInto
      (encodeExpansion bytes (origin.getD 0) (chunk.getD 16))) :=
  (StepsTo.encode hq ((chunkSizeOk_iff _).mpr hchunk)).step_eq

theorem toNat_pos_of_ne_zero {c : Byte} (h : c ≠ 0) : 0 < c.toNat :=
  Nat.pos_of_ne_zero fun h0 => h (BitVec.eq_of_toNat_eq h0)

theorem toNat_le_255 (c : Byte) : c.toNat ≤ 255 := Nat.le_of_lt_succ c.isLt

/-- The driver's sequence emits the records of all chunks and the end-of-file record. -/
theorem emits_encodeExpansion {s : State} {bytes : List Byte} {origin : Word} {c : Byte} {q : List Action}
    (hc : c ≠ 0) (hq : s.host.queue = encodeExpansion bytes origin c ++ q) :
    ∃ t, Emits s t q (encodeText bytes origin c.toNat)
        (2 * bytes.length + 13 * chunkCount c.toNat bytes.length + 12) ∧
      t.addr = targetAddress origin bytes.length ∧ t.sum = 0x01 := by
  have hpos := toNat_pos_of_ne_zero hc
  rw [encodeExpansion, List.append_assoc, List.append_assoc, chunks] at hq
  obtain ⟨s₁, hload, haddr⟩ := emits_atLoad hq
  obtain ⟨s₂, hloop, hend⟩ := emits_chunkExpansions hpos (toNat_le_255 c) le_rfl hload.queue
  obtain ⟨t, heof, hsum⟩ := prints_encEof hloop.queue
  rw [haddr, min_eq_right (le_chunkCount_mul hpos _)] at hloop hend
  have hall := hload.trans (hloop.trans heof.toEmits)
  rw [show 1 + (2 * bytes.length + 13 * chunkCount c.toNat bytes.length + 11) =
    2 * bytes.length + 13 * chunkCount c.toNat bytes.length + 12 by omega] at hall
  refine ⟨t, ?_, heof.addr.trans hend, hsum⟩
  rw [encodeText, encodeRecords, List.flatMap_append, List.flatMap_singleton]
  exact hall

/-- `ENCODE` notes the position in the line-sink and emits the whole output from there. -/
theorem runsTo_encode {s : State} {bytes : List Byte} {origin : Option Word} {chunk : Option Byte} {q : List Action}
    (hq : s.host.queue = .encode bytes origin chunk :: q) (hchunk : chunk.getD 16 ≠ 0) :
    ∃ t, RunsTo s t (2 * bytes.length + 13 * chunkCount (chunk.getD 16).toNat bytes.length + 12)
        (2 * bytes.length + 12 * chunkCount (chunk.getD 16).toNat bytes.length + 12) ∧ t.host.queue = q ∧
      t.host.sink = s.host.sink ++ encodeText bytes (origin.getD 0) (chunk.getD 16).toNat ∧
      t.host.output = encodeText bytes (origin.getD 0) (chunk.getD 16).toNat ∧
      t.addr = targetAddress (origin.getD 0) bytes.length ∧ t.sum = 0x01 := by
  have hpos := toNat_pos_of_ne_zero hchunk
  obtain ⟨t, hemits, haddr, hsum⟩ := emits_encodeExpansion hchunk (q := q)
    (s := (s.withQueue q).noteOutputStart.expandInto (encodeExpansion bytes (origin.getD 0) (chunk.getD 16))) rfl
  have hsink : t.host.sink = s.host.sink ++ encodeText bytes (origin.getD 0) (chunk.getD 16).toNat := hemits.sink
  have hstart : t.host.outputStart = s.host.sink.length := hemits.outputStart
  refine ⟨t, ?_, hemits.queue, hsink, ?_, haddr, hsum⟩
  · rw [chunkCount_eq hpos, ← outputLengths.2 bytes (origin.getD 0) _ hpos (toNat_le_255 _), ← chunkCount_eq hpos]
    exact hemits.run.of_expansion hq ⟨rfl, rfl⟩ (step_encode hq hchunk)
  · rw [Sequencer.output, hsink, hstart, List.drop_left]

/-- Data record `j` has chunk `j` as its data, the chunk's length as its count, and the address `j` chunks on. -/
theorem dataRecords_of_chunk {bytes ch : List Byte} {origin : Word} {c j : Nat} (hc : 0 < c) (hc' : c ≤ 255)
    (hch : (chunks c bytes)[j]? = some ch) :
    ∃ r, (dataRecords bytes origin c)[j]? = some r ∧ r.address.toNat = (origin.toNat + j * c) % 65536 ∧
      r.byteCount.toNat = ch.length ∧ r.data = ch := by
  obtain ⟨hj, rfl⟩ := getElem?_chunks_eq_some_iff.mp hch
  obtain ⟨-, hle⟩ := length_chunkAt_bounds hc hj
  exact ⟨_, getElem?_dataRecords hj origin, toNat_recordAddress origin c j,
    toNat_dataRecord_byteCount _ (hle.trans hc'), rfl⟩

/-- Settles O57: the expansion is the rule's, and its run emits the text of all records. -/
theorem encodeEmitsTheWholeOutput : Obligations.EncodeEmitsTheWholeOutput := by
  intro s bytes origin chunk q hq
  refine ⟨fun hchunk => ⟨⟨_, step_encode hq hchunk, rfl, rfl, rfl, ?_⟩, fun j ch hch => ?_, ?_⟩, fun hzero => ?_⟩
  · exact List.append_assoc ..
  · exact dataRecords_of_chunk (toNat_pos_of_ne_zero hchunk) (toNat_le_255 _) hch
  · obtain ⟨t, hrun, hqueue, hsink, houtput, haddr, hsum⟩ := runsTo_encode hq hchunk
    refine ⟨t, _, chunkCount_eq (toNat_pos_of_ne_zero hchunk) _, hrun, hqueue, hsink, houtput, ?_, hsum⟩
    rw [haddr, toNat_targetAddress]
  · have hno : ¬ chunkSizeOk (chunk.getD Config.defaultChunkSize) = true := fun hok =>
      (chunkSizeOk_iff _).mp hok hzero
    rw [step_cons s _ q hq, perform, if_neg hno, raise, show chunk.getD Config.defaultChunkSize = 0 from hzero]

/-- Settles O59: the counts, the output and the final registers that the run of `ENCODE` has name its operands only. -/
theorem encodeIsAPureFunctionOfItsOperands : Obligations.EncodeIsAPureFunctionOfItsOperands := by
  intro s s' bytes origin chunk q q' hq hq' hne
  have hchunk : chunk.getD 16 ≠ 0 := by
    cases chunk with
    | none => decide
    | some c => exact fun h => hne (congrArg some h)
  obtain ⟨t, hrun, hqueue, -, houtput, haddr, hsum⟩ := runsTo_encode hq hchunk
  obtain ⟨t', hrun', hqueue', -, houtput', haddr', hsum'⟩ := runsTo_encode hq' hchunk
  exact ⟨t, t', _, _, hrun, hrun', hqueue, hqueue', houtput.trans houtput'.symm, haddr.trans haddr'.symm,
    hsum.trans hsum'.symm⟩

/-! ### The actions of a record (R67) -/

/-- The operand rendered under the name `x`: field `x`, or the checksum under the name after the fields. -/
inductive Renders (fields : List ByteRef) : HostName → ByteRef → Prop where
  | field {x b} : fields[x]? = some b → Renders fields x b
  | checksum : Renders fields fields.length (.checksum ownName)

/-- The actions of a record, by their kind. -/
inductive RecordAction (fields : List ByteRef) : Action → Prop where
  | emitLit (c) : RecordAction fields (.emit (.lit c))
  | clear : RecordAction fields (.present (.instr .csClr) ownName)
  | add {b} : b ∈ fields → RecordAction fields (.present (.csAdd b) ownName)
  | negate : RecordAction fields (.present (.instr .csNeg) ownName)
  | render {x b} : Renders fields x b → RecordAction fields (.present (.hxByte b) x)
  | emitFirst {x b} : Renders fields x b → RecordAction fields (.emit (.first x))
  | emitSecond {x b} : Renders fields x b → RecordAction fields (.emit (.second x))

/-- The actions of all fields, in the order of R66. -/
def allFieldActions (fields : List ByteRef) : List Action := fields.zipIdx.flatMap fun p => fieldActions p.1 p.2

theorem recordActions_eq (fields : List ByteRef) :
    recordActions fields =
      [Action.emit (.lit colonChar), Action.present (.instr .csClr) ownName] ++ allFieldActions fields ++
      [Action.present (.instr .csNeg) ownName, Action.present (.hxByte (.checksum ownName)) fields.length,
        Action.emit (.first fields.length), Action.emit (.second fields.length), Action.emit (.lit newlineChar)] :=
  rfl

theorem mem_allFieldActions {fields : List ByteRef} {act : Action} :
    act ∈ allFieldActions fields ↔ ∃ x b, fields[x]? = some b ∧ act ∈ fieldActions b x := by
  simp only [allFieldActions, List.mem_flatMap, Prod.exists, List.mem_zipIdx_iff_getElem?]
  exact exists_comm

theorem mem_recordActions_of_mem_fieldActions {fields : List ByteRef} {act : Action} {x : HostName} {b : ByteRef}
    (hb : fields[x]? = some b) (h : act ∈ fieldActions b x) : act ∈ recordActions fields :=
  List.mem_append_left _ (List.mem_append_right _ (mem_allFieldActions.mpr ⟨x, b, hb, h⟩))

theorem recordAction_of_mem {fields : List ByteRef} {act : Action} (h : act ∈ recordActions fields) :
    RecordAction fields act := by
  simp only [recordActions_eq, List.mem_append, mem_allFieldActions, fieldActions, List.mem_cons, List.not_mem_nil,
    or_false] at h
  obtain ((rfl | rfl) | ⟨x, b, hb, rfl | rfl | rfl | rfl⟩) | rfl | rfl | rfl | rfl | rfl := h
  · exact .emitLit _
  · exact .clear
  · exact .add (List.mem_of_getElem? hb)
  · exact .render (.field hb)
  · exact .emitFirst (.field hb)
  · exact .emitSecond (.field hb)
  · exact .negate
  · exact .render .checksum
  · exact .emitFirst .checksum
  · exact .emitSecond .checksum
  · exact .emitLit _

theorem clear_mem_recordActions (fields : List ByteRef) :
    .present (.instr .csClr) ownName ∈ recordActions fields := by
  simp [recordActions]

theorem negate_mem_recordActions (fields : List ByteRef) :
    .present (.instr .csNeg) ownName ∈ recordActions fields := by
  simp [recordActions]

theorem render_mem_recordActions {fields : List ByteRef} {x : HostName} {b : ByteRef} (h : Renders fields x b) :
    .present (.hxByte b) x ∈ recordActions fields := by
  cases h with
  | field hb => exact mem_recordActions_of_mem_fieldActions hb (by simp [fieldActions])
  | checksum => simp [recordActions]

theorem add_mem_recordActions {fields : List ByteRef} {b : ByteRef} (h : b ∈ fields) :
    .present (.csAdd b) ownName ∈ recordActions fields := by
  obtain ⟨x, hb⟩ := List.mem_iff_getElem?.mp h
  exact mem_recordActions_of_mem_fieldActions hb (by simp [fieldActions])

/-! ### What the operands of a record's actions are to stand for -/

/-- The byte to be rendered under the name `x`, for fields of the given bytes: a field or, after them, the checksum. -/
def renderedByte (fields : List Byte) (x : HostName) : Byte :=
  (fields ++ [negateSum (sumBytes fields)]).getD x 0x00

/-- What an operand is to stand for when it is used, for fields that stand for the given bytes. -/
def plannedValue (h : Sequencer) (fields : List Byte) : ByteRef → Byte
  | .checksum _ => negateSum (sumBytes fields)
  | .first x    => hexchar (highNibble (renderedByte fields x))
  | .second x   => hexchar (lowNibble (renderedByte fields x))
  | b           => b.value h

theorem plannedValue_of_isFieldOperand {b : ByteRef} (hb : b.isFieldOperand = true) (h : Sequencer)
    (fields : List Byte) : plannedValue h fields b = b.value h := by
  cases b with
  | lit | addrHi | addrLo => rfl
  | checksum | first | second => cases hb

theorem plannedValue_of_renders {fields : List ByteRef} (hfields : ∀ b ∈ fields, b.isFieldOperand = true)
    {x : HostName} {b : ByteRef} (hb : Renders fields x b) (h : Sequencer) :
    plannedValue h (byteValues h fields) b = renderedByte (byteValues h fields) x := by
  cases hb with
  | field hget =>
    obtain ⟨hx, rfl⟩ := List.getElem?_eq_some_iff.mp hget
    rw [plannedValue_of_isFieldOperand (hfields _ (List.getElem_mem hx))]
    simp [renderedByte, byteValues, List.getElem?_append, hx]
  | checksum => simp [renderedByte, byteValues, plannedValue]

/-- The byte an action adds to `SUM`. -/
def Action.addend (v : ByteRef → Byte) : Action → Option Byte
  | .present (.csAdd b) _ => some (v b)
  | _                     => none

/-- The character an action emits. -/
def Action.character (v : ByteRef → Byte) : Action → Option Byte
  | .emit c => some (v c)
  | _       => none

/-- What is read off the actions of all fields can be read off the fields. -/
theorem filterMap_allFieldActions {α : Type} {f : Action → Option α} {fields : List ByteRef} {g : ByteRef → List α}
    (h : ∀ x b, fields[x]? = some b → (fieldActions b x).filterMap f = g b) :
    (allFieldActions fields).filterMap f = fields.flatMap g := by
  have hcongr : ∀ p ∈ fields.zipIdx, (fieldActions p.1 p.2).filterMap f = g p.1 := fun p hp =>
    h p.2 p.1 (List.mem_zipIdx_iff_getElem?.mp hp)
  rw [allFieldActions, List.filterMap_flatMap, List.flatMap_congr hcongr, ← List.flatMap_map, List.zipIdx_map_fst]

/-- Each field is added once. -/
theorem filterMap_addend_recordActions (v : ByteRef → Byte) (fields : List ByteRef) :
    (recordActions fields).filterMap (Action.addend v) = fields.map v := by
  have hfields : (allFieldActions fields).filterMap (Action.addend v) = fields.flatMap fun b => [v b] :=
    filterMap_allFieldActions fun _ _ _ => rfl
  rw [recordActions_eq, List.filterMap_append, List.filterMap_append, hfields, ← List.map_eq_flatMap]
  exact List.append_nil _

/-- The characters of a record's emits, in the order of R66, are the text of the record. -/
theorem filterMap_character_recordActions {fields : List ByteRef} (hfields : ∀ b ∈ fields, b.isFieldOperand = true)
    (h : Sequencer) :
    (recordActions fields).filterMap (Action.character (plannedValue h (byteValues h fields))) =
      recordText (byteValues h fields) := by
  have hall : (allFieldActions fields).filterMap (Action.character (plannedValue h (byteValues h fields))) =
      fields.flatMap fun b => hexPair (b.value h) := by
    refine filterMap_allFieldActions fun x b hb => ?_
    rw [← plannedValue_of_isFieldOperand (hfields b (List.mem_of_getElem? hb)) h (byteValues h fields),
      plannedValue_of_renders hfields (.field hb)]
    rfl
  have hchecksum : renderedByte (byteValues h fields) fields.length = negateSum (sumBytes (byteValues h fields)) :=
    (plannedValue_of_renders hfields .checksum h).symm
  rw [recordActions_eq, List.filterMap_append, List.filterMap_append, hall, recordText, byteValues, List.flatMap_map,
    List.append_assoc _ (hexPair _), ← byteValues, ← hchecksum]
  rfl

/-- What is emitted depends on the emits and their order only. -/
theorem filterMap_character_filter_isEmit (v : ByteRef → Byte) (actions : List Action) :
    (actions.filter Action.isEmit).filterMap (Action.character v) = actions.filterMap (Action.character v) := by
  rw [List.filterMap_filter]
  congr 1
  funext act
  cases act <;> rfl

theorem countP_isCommand_recordActions (fields : List ByteRef) :
    (recordActions fields).countP Action.isCommand = 2 * fields.length + 3 := by
  have hall : (allFieldActions fields).countP Action.isCommand = 2 * fields.length := by
    have hfield : List.countP Action.isCommand ∘ (fun p => fieldActions p.1 p.2) = fun _ : ByteRef × Nat => 2 := rfl
    rw [allFieldActions, List.countP_flatMap, hfield, List.map_const', List.sum_replicate, List.length_zipIdx]
    exact Nat.mul_comm ..
  rw [recordActions_eq, List.countP_append, List.countP_append, hall]
  show 1 + 2 * fields.length + 2 = 2 * fields.length + 3
  omega

/-! ### The orders that R67 allows -/

theorem mem_of_mem_concat_of_ne {done : List Action} {a act : Action} (hmem : a ∈ done ++ [act]) (hne : a ≠ act) :
    a ∈ done := by
  simpa [hne] using hmem

section
variable {fields : List ByteRef} {done rest : List Action} {act a : Action}

/-- What may not come after an action has come by the time that action has. -/
theorem AllowedOrder.mem_left (h : AllowedOrder fields (done ++ rest)) (hact : act ∈ done)
    (ha : a ∈ recordActions fields) (hno : mayPrecede act a = false) : a ∈ done := by
  obtain ⟨hperm, -, horder⟩ := h
  obtain ⟨-, -, hcross⟩ := List.pairwise_append.mp horder
  obtain hdone | hrest := List.mem_append.mp (hperm.mem_iff.mpr ha)
  · exact hdone
  · exact absurd (hcross act hact a hrest) (by simp [hno])

/-- What may not come after the next action has come before it. -/
theorem AllowedOrder.mem_done (h : AllowedOrder fields (done ++ act :: rest)) (ha : a ∈ recordActions fields)
    (hne : a ≠ act) (hno : mayPrecede act a = false) : a ∈ done := by
  rw [List.append_cons] at h
  exact mem_of_mem_concat_of_ne (h.mem_left (by simp) ha hno) hne

theorem AllowedOrder.recordAction_next (h : AllowedOrder fields (done ++ act :: rest)) : RecordAction fields act :=
  recordAction_of_mem (h.1.mem_iff.mp (by simp))

theorem Action.addend_eq_none (v : ByteRef → Byte) (h : ∀ b x, act ≠ .present (.csAdd b) x) :
    act.addend v = none := by
  unfold Action.addend
  split
  next b x => exact absurd rfl (h b x)
  next => rfl

/-- Nothing is added before the clear (R67 b). -/
theorem AllowedOrder.addends_before_clear (h : AllowedOrder fields (done ++ .present (.instr .csClr) ownName :: rest))
    (v : ByteRef → Byte) : done.filterMap (Action.addend v) = [] := by
  obtain ⟨-, -, hcross⟩ := List.pairwise_append.mp h.2.2
  refine List.filterMap_eq_nil_iff.mpr fun u hu => Action.addend_eq_none v ?_
  rintro b x rfl
  exact absurd (hcross _ hu _ List.mem_cons_self) (by simp [mayPrecede])

/-- Nothing is added after the negation (R67 c). -/
theorem AllowedOrder.addends_after_negate (h : AllowedOrder fields (done ++ .present (.instr .csNeg) ownName :: rest))
    (v : ByteRef → Byte) : rest.filterMap (Action.addend v) = [] := by
  obtain ⟨-, hrest, -⟩ := List.pairwise_append.mp h.2.2
  obtain ⟨hafter, -⟩ := List.pairwise_cons.mp hrest
  refine List.filterMap_eq_nil_iff.mpr fun u hu => Action.addend_eq_none v ?_
  rintro b x rfl
  exact absurd (hafter _ hu) (by simp [mayPrecede])

/-- The clear comes before the negation, since the adds come between them. -/
theorem AllowedOrder.clear_before_negate (h : AllowedOrder fields (done ++ .present (.instr .csNeg) ownName :: rest))
    (hne : fields ≠ []) : .present (.instr .csClr) ownName ∈ done := by
  obtain ⟨b, hb⟩ := List.exists_mem_of_ne_nil _ hne
  have hadd := h.mem_done (add_mem_recordActions hb) (by simp) rfl
  exact h.mem_left hadd (clear_mem_recordActions fields) rfl

/-- Each field is added once, in whatever order (R58, R67 d). -/
theorem AllowedOrder.sumBytes_addends {actions : List Action} (h : AllowedOrder fields actions)
    (hfields : ∀ b ∈ fields, b.isFieldOperand = true) (host : Sequencer) :
    sumBytes (actions.filterMap (Action.addend (plannedValue host (byteValues host fields)))) =
      sumBytes (byteValues host fields) := by
  rw [sumBytes_eq_of_perm (h.1.filterMap _), filterMap_addend_recordActions,
    List.map_congr_left fun b hb => plannedValue_of_isFieldOperand (hfields b hb) host _]
  rfl

end

/-- How far a record has come: the actions done have emitted their characters, `SUM` is the sum of what was added once
it was cleared, and every name bound so far stands for what was planned. -/
structure RecordProgress (v : ByteRef → Byte) (s : State) (done rest : List Action) (t : State) : Prop
    extends Emits s t rest (done.filterMap (Action.character v)) (done.countP Action.isCommand) where
  addr     : t.addr = s.addr
  addrs    : t.host.addrs = s.host.addrs
  sum      : .present (.instr .csClr) ownName ∈ done → t.sum = sumBytes (done.filterMap (Action.addend v))
  checksum : .present (.instr .csNeg) ownName ∈ done → t.host.checksumOf ownName = v (.checksum ownName)
  chars    : ∀ x b, .present (.hxByte b) x ∈ done → t.host.charsOf x = (v (.first x), v (.second x))

section
variable {v : ByteRef → Byte} {s t : State} {done rest : List Action}

/-- An action that adds nothing leaves the sum of what was added. -/
theorem RecordProgress.sum_concat (h : RecordProgress v s done rest t) {act : Action}
    (hne : .present (.instr .csClr) ownName ≠ act) (hnone : act.addend v = none)
    (hmem : .present (.instr .csClr) ownName ∈ done ++ [act]) :
    t.sum = sumBytes ((done ++ [act]).filterMap (Action.addend v)) := by
  rw [h.sum (mem_of_mem_concat_of_ne hmem hne), List.filterMap_append, List.filterMap_cons_none hnone,
    List.filterMap_nil, List.append_nil]

theorem RecordProgress.checksum_concat (h : RecordProgress v s done rest t) {act : Action}
    (hne : .present (.instr .csNeg) ownName ≠ act) (hmem : .present (.instr .csNeg) ownName ∈ done ++ [act]) :
    t.host.checksumOf ownName = v (.checksum ownName) :=
  h.checksum (mem_of_mem_concat_of_ne hmem hne)

theorem RecordProgress.chars_concat (h : RecordProgress v s done rest t) {act : Action} {x : HostName} {b : ByteRef}
    (hne : .present (.hxByte b) x ≠ act) (hmem : .present (.hxByte b) x ∈ done ++ [act]) :
    t.host.charsOf x = (v (.first x), v (.second x)) :=
  h.chars x b (mem_of_mem_concat_of_ne hmem hne)

theorem RecordProgress.emit {c : ByteRef} (h : RecordProgress v s done (.emit c :: rest) t)
    (hc : c.value t.host = v c) : ∃ t', RecordProgress v s (done ++ [.emit c]) rest t' := by
  have hall := h.toEmits.trans (emits_emit h.queue)
  rw [hc] at hall
  refine ⟨((t.withQueue rest).emitChar (v c)).noResponse, ?_, h.addr, h.addrs, h.sum_concat (by simp) rfl,
    h.checksum_concat (by simp), fun _ _ => h.chars_concat (by simp)⟩
  simpa [Action.character, Action.isCommand] using hall

/-- A command appends nothing, whatever else it does. -/
theorem RecordProgress.emits_command {p : Presented} {x : HostName} {i : Instr} {u : State}
    (h : RecordProgress v s done (.present p x :: rest) t) (hp : p.cmd t.host = encode i)
    (hu : exec i (t.withQueue rest) = .next u) :
    Emits s (takeResponse i x u) rest ((done ++ [Action.present p x]).filterMap (Action.character v))
      ((done ++ [Action.present p x]).countP Action.isCommand) := by
  have hall := h.toEmits.trans (Machine.emits_command h.queue hp hu)
  simpa [List.filterMap_cons, Action.character, Action.isCommand] using hall

/-- The clear, before every add. -/
theorem RecordProgress.clear (h : RecordProgress v s done (.present (.instr .csClr) ownName :: rest) t)
    (hnone : done.filterMap (Action.addend v) = []) :
    ∃ t', RecordProgress v s (done ++ [.present (.instr .csClr) ownName]) rest t' := by
  refine ⟨_, h.emits_command rfl (exec_csClr _), h.addr, h.addrs, fun _ => ?_, h.checksum_concat (by simp),
    fun _ _ => h.chars_concat (by simp)⟩
  rw [List.filterMap_append, hnone]
  rfl

theorem RecordProgress.add {b : ByteRef} (h : RecordProgress v s done (.present (.csAdd b) ownName :: rest) t)
    (hb : b.value t.host = v b) : ∃ t', RecordProgress v s (done ++ [.present (.csAdd b) ownName]) rest t' := by
  refine ⟨_, h.emits_command rfl (exec_csAdd _ _), h.addr, h.addrs, fun hclear => ?_, h.checksum_concat (by simp),
    fun _ _ => h.chars_concat (by simp)⟩
  have hsum := h.sum (mem_of_mem_concat_of_ne hclear (by simp))
  show wrapAddSum t.sum (b.value t.host) = _
  simp [Action.addend, hsum, hb]

/-- The negation, of the sum planned. -/
theorem RecordProgress.negate (h : RecordProgress v s done (.present (.instr .csNeg) ownName :: rest) t)
    (hsum : negateSum t.sum = v (.checksum ownName)) :
    ∃ t', RecordProgress v s (done ++ [.present (.instr .csNeg) ownName]) rest t' :=
  ⟨_, h.emits_command rfl (exec_csNeg _), h.addr, h.addrs, h.sum_concat (by simp) rfl,
    fun _ => ((State.holdChecksum_checksumOf ..).trans (lowByte_zeroExtend16 _)).trans hsum,
    fun _ _ => h.chars_concat (by simp)⟩

/-- A rendering binds its name to what was planned for it, even where the name was bound before. -/
theorem RecordProgress.render {b : ByteRef} {x : HostName}
    (h : RecordProgress v s done (.present (.hxByte b) x :: rest) t)
    (hb : (hexchar (highNibble (b.value t.host)), hexchar (lowNibble (b.value t.host))) =
      (v (.first x), v (.second x))) :
    ∃ t', RecordProgress v s (done ++ [.present (.hxByte b) x]) rest t' := by
  refine ⟨_, h.emits_command rfl (exec_hxByte _ _), h.addr, h.addrs, h.sum_concat (by simp) rfl,
    h.checksum_concat (by simp), fun y b' hmem => ?_⟩
  by_cases hyx : y = x
  · subst hyx
    refine (State.holdChars_charsOf ..).trans ?_
    rw [highByte_concatBytes, lowByte_concatBytes, hb]
  · exact (State.holdChars_charsOf_of_ne _ hyx _).trans (h.chars_concat (by simp [hyx]) hmem)

end

section
variable {fields : List ByteRef} (hfields : ∀ b ∈ fields, b.isFieldOperand = true) (hne : fields ≠ [])
  {s t : State} {done rest q : List Action}
include hfields hne

/-- Every action of an allowed order does what was planned for it, given that all before it did. -/
theorem RecordProgress.step {act : Action} (horder : AllowedOrder fields (done ++ act :: rest))
    (h : RecordProgress (plannedValue s.host (byteValues s.host fields)) s done (act :: rest ++ q) t) :
    ∃ t', RecordProgress (plannedValue s.host (byteValues s.host fields)) s (done ++ [act]) (rest ++ q) t' := by
  have hvalue {b : ByteRef} (hb : b ∈ fields) :
      b.value t.host = plannedValue s.host (byteValues s.host fields) b := by
    rw [plannedValue_of_isFieldOperand (hfields b hb), ByteRef.value_congr_addrs (hfields b hb) h.addrs]
  cases horder.recordAction_next with
  | emitLit c => exact h.emit rfl
  | @emitFirst x b hb =>
    have hdone := horder.mem_done (render_mem_recordActions hb) (by simp) (by simp [mayPrecede])
    exact h.emit (congrArg Prod.fst (h.chars x b hdone))
  | @emitSecond x b hb =>
    have hdone := horder.mem_done (render_mem_recordActions hb) (by simp) (by simp [mayPrecede])
    exact h.emit (congrArg Prod.snd (h.chars x b hdone))
  | clear => exact h.clear (horder.addends_before_clear _)
  | add hb => exact h.add (hvalue hb)
  | negate =>
    have hsum := horder.sumBytes_addends hfields s.host
    rw [List.filterMap_append, List.filterMap_cons_none rfl, horder.addends_after_negate, List.append_nil,
      ← h.sum (horder.clear_before_negate hne)] at hsum
    exact h.negate (congrArg negateSum hsum)
  | @render x b hb =>
    have hb' : b.value t.host = renderedByte (byteValues s.host fields) x := by
      rw [← plannedValue_of_renders hfields hb s.host]
      cases hb with
      | field hget => exact hvalue (List.mem_of_getElem? hget)
      | checksum => exact h.checksum (horder.mem_done (negate_mem_recordActions fields) (by simp) rfl)
    exact h.render (by rw [hb']; rfl)

/-- An allowed order runs to its end. -/
theorem RecordProgress.run_rest (horder : AllowedOrder fields (done ++ rest))
    (h : RecordProgress (plannedValue s.host (byteValues s.host fields)) s done (rest ++ q) t) :
    ∃ u, RecordProgress (plannedValue s.host (byteValues s.host fields)) s (done ++ rest) q u := by
  induction rest generalizing done t with
  | nil => exact ⟨t, by rwa [List.append_nil]⟩
  | cons act rest ih =>
    obtain ⟨t', ht'⟩ := h.step hfields hne horder
    rw [List.append_cons] at horder ⊢
    exact ih horder ht'

/-- Every allowed order of a record's actions emits the record's text and leaves the sum of its fields in `SUM`. -/
theorem emits_allowedOrder {actions : List Action} (horder : AllowedOrder fields actions)
    (hq : s.host.queue = actions ++ q) :
    ∃ t, Emits s t q (recordText (byteValues s.host fields)) (2 * fields.length + 3) ∧ t.addr = s.addr ∧
      t.sum = sumBytes (byteValues s.host fields) := by
  have hstart : RecordProgress (plannedValue s.host (byteValues s.host fields)) s [] (actions ++ q) s :=
    ⟨.refl hq, rfl, rfl, by simp, by simp, by simp⟩
  obtain ⟨t, hdone⟩ := hstart.run_rest hfields hne (done := []) horder
  rw [List.nil_append] at hdone
  have htext : actions.filterMap (Action.character (plannedValue s.host (byteValues s.host fields))) =
      recordText (byteValues s.host fields) := by
    rw [← filterMap_character_filter_isEmit, horder.2.1, filterMap_character_filter_isEmit,
      filterMap_character_recordActions hfields]
  have hemits := hdone.toEmits
  rw [htext, horder.1.countP_eq, countP_isCommand_recordActions] at hemits
  refine ⟨t, hemits, hdone.addr, ?_⟩
  rw [hdone.sum (horder.1.mem_iff.mpr (clear_mem_recordActions fields)), horder.sumBytes_addends hfields]

end

/-- Settles O60: whatever the order, each operand stands for the same byte when it is used as in the order of R66. -/
theorem recordCommandsMayBeReordered : Obligations.RecordCommandsMayBeReordered := by
  intro s a data actions q _ _ horder hq
  obtain ⟨t, hemits, haddr, hsum⟩ :=
    emits_allowedOrder isFieldOperand_of_mem_dataFields (by simp [dataFields]) horder hq
  rw [byteValues_dataFields, length_dataFields, ← makeRecord_line] at hemits
  rw [byteValues_dataFields] at hsum
  refine ⟨t, ?_, haddr, hsum, hemits.queue, hemits.sink⟩
  have hrun := hemits.run
  rwa [Record.length_line, Nat.add_comm 12] at hrun

end Sys2Proof.Machine
end

section
/-! SUPPORT. Proofs of the statements on faults (spec/60_exceptions.md): when a step faults (R80 to R83), that an `ENCODE`
with a legal `chunk_size` never does (R84), and, besides, that the idle step changes nothing (R91,
R95) and that the host can observe both registers (R91). Each proof has the rules it needs before it. -/

namespace Sys2Proof.Machine

/-! ### Every way a step can fault (R80) -/

/-- The faults of a step, one rule for each cause. -/
inductive StepFaults (s : State) : Fault → Prop where
  | encode {bytes origin chunk q} : s.host.queue = .encode bytes origin chunk :: q → chunk.getD 16 = 0 →
      StepFaults s (.configurationError 0)
  | encData {a data q} : s.host.queue = .encData a data :: q → data.length = 0 ∨ 255 < data.length →
      StepFaults s (.preconditionViolation data.length)
  | command {p x q e} : s.host.queue = .present p x :: q → decode (p.cmd s.host) = .error e →
      StepFaults s (.illegalCommand (p.cmd s.host))

theorem StepFaults.step_eq {s : State} {f : Fault} (h : StepFaults s f) : step s = .fault f := by
  cases h with
  | encode hq hzero =>
    obtain ⟨-, hfault⟩ := encodeEmitsTheWholeOutput _ _ _ _ _ hq
    exact hfault hzero
  | encData hq hlen =>
    obtain ⟨-, hfault⟩ := encDataEmitsItsRecordLine _ _ _ _ hq
    exact hfault hlen
  | command hq he =>
    rw [step_present hq, runCommand_of_isLegal_eq_false (isLegal_eq_false_iff.mpr ⟨_, he⟩)]

/-- A step answers a next state or faults: where an action has a precondition, the step faults if it does not hold. -/
theorem stepsTo_or_stepFaults (s : State) : (∃ t, StepsTo s t) ∨ ∃ f, StepFaults s f := by
  cases hq : s.host.queue with
  | nil => exact .inl ⟨_, .idle hq⟩
  | cons act q =>
    cases act with
    | present p x =>
      cases hw : decode (p.cmd s.host) with
      | ok i =>
        obtain ⟨u, hu⟩ := exec_next i (s.withQueue q)
        exact .inl ⟨_, .command hq hw hu⟩
      | error e => exact .inr ⟨_, .command hq hw⟩
    | encData a data =>
      by_cases hlen : 1 ≤ data.length ∧ data.length ≤ 255
      · exact .inl ⟨_, .encData hq ((dataLengthOk_iff data).mpr hlen)⟩
      · exact .inr ⟨_, .encData hq (by omega)⟩
    | encode bytes origin chunk =>
      by_cases hzero : chunk.getD 16 = 0
      · exact .inr ⟨_, .encode hq hzero⟩
      · exact .inl ⟨_, .encode hq ((chunkSizeOk_iff _).mpr hzero)⟩
    | reset ignored => exact .inl ⟨_, .reset hq⟩
    | emit c => exact .inl ⟨_, .emit hq⟩
    | hex2 b => exact .inl ⟨_, .hex2 hq⟩
    | field b => exact .inl ⟨_, .field hq⟩
    | encEof => exact .inl ⟨_, .encEof hq⟩

/-- When a step faults, said once. -/
theorem step_eq_fault_iff {s : State} {f : Fault} : step s = .fault f ↔ StepFaults s f := by
  refine ⟨fun h => ?_, StepFaults.step_eq⟩
  obtain ⟨t, ht⟩ | ⟨g, hg⟩ := stepsTo_or_stepFaults s
  · cases h.symm.trans ht.step_eq
  · cases h.symm.trans hg.step_eq
    exact hg

/-- Settles O25, one case for each cause of a fault. -/
theorem faultsHaveExactlyThreeCauses : Obligations.FaultsHaveExactlyThreeCauses := by
  intro s f
  rw [step_eq_fault_iff]
  constructor
  · intro h
    cases h with
    | encode hq hzero => exact .inl ⟨_, _, _, _, hq, hzero, rfl, rfl⟩
    | encData hq hlen => exact .inr (.inl ⟨_, _, _, hq, hlen, rfl, rfl⟩)
    | command hq he => exact .inr (.inr ⟨_, _, _, _, hq, he, rfl, rfl⟩)
  · rintro (⟨_, _, _, _, hq, hzero, rfl, -⟩ | ⟨_, _, _, hq, hlen, rfl, -⟩ | ⟨_, _, _, _, hq, he, rfl, -⟩)
    · exact .encode hq hzero
    · exact .encData hq hlen
    · exact .command hq he

/-! ### Safe runs (R84) -/

theorem SafeFrom.of_step {s t : State} (hstep : step s = .next t) (ht : SafeFrom t) : SafeFrom s := by
  intro n
  cases n with
  | zero => exact ⟨s, rfl⟩
  | succ n => rw [run_succ hstep]; exact ht n

/-- A run that comes to a state from which all goes well met no fault on its way there. -/
theorem SafeFrom.of_run {s t : State} {n : Nat} (hrun : run n s = .next t) (ht : SafeFrom t) : SafeFrom s := by
  induction n generalizing s with
  | zero => cases hrun; exact ht
  | succ n ih =>
    cases hstep : step s with
    | next u => exact .of_step hstep (ih ((run_succ hstep n).symm.trans hrun))
    | fault f => simp [run, hstep] at hrun
    | refused r => simp [run, hstep] at hrun

/-- A host with nothing to do idles on. -/
theorem safeFrom_of_queue_nil {s : State} (hq : s.host.queue = []) : SafeFrom s := by
  intro n
  induction n generalizing s with
  | zero => exact ⟨s, rfl⟩
  | succ n ih => rw [run_succ (step_nil s hq)]; exact ih hq

/-- A `chunk_size` other than 0 is legal, and so is the default that stands for an omitted one. -/
theorem getD_chunk_ne_zero {chunk : Option Byte} (h : chunk ≠ some 0) : chunk.getD 16 ≠ 0 := by
  cases chunk with
  | none => decide
  | some c => exact fun hc => h (congrArg some hc)

/-- Settles O58: the run of `ENCODE` comes to its end, and from there the host idles. -/
theorem encodeNeverFaults : Obligations.EncodeNeverFaults := by
  intro s bytes origin chunk hq hne
  obtain ⟨t, ⟨n, hrun, -, -⟩, hqueue, -⟩ := runsTo_encode hq (getD_chunk_ne_zero hne)
  exact .of_run hrun (safeFrom_of_queue_nil hqueue)

/-! ### Each cause of a fault by itself (R81 to R83) -/

/-- Settles O19: an illegal word is one that the decoder rejects. -/
theorem illegalWordRaisesIllegalCommand : Obligations.IllegalWordRaisesIllegalCommand := by
  intro s p x q hq hillegal
  obtain ⟨e, he⟩ := isLegal_eq_false_iff.mp hillegal
  exact (StepFaults.command hq he).step_eq

/-- Settles O27: the check is made before the expansion is planned, and planning it touches no register. -/
theorem zeroChunkSizeIsConfigurationError : Obligations.ZeroChunkSizeIsConfigurationError := by
  intro s bytes origin q
  refine ⟨fun hq => (StepFaults.encode hq rfl).step_eq, fun chunk hq hne => ?_⟩
  exact ⟨_, step_encode hq (getD_chunk_ne_zero hne), rfl, rfl, rfl, rfl⟩

/-- Settles O28, by the precondition on the number of data bytes. -/
theorem encDataRefusesBadLengths : Obligations.EncDataRefusesBadLengths := by
  intro s a data q hq
  refine ⟨fun hlen => (StepFaults.encData hq hlen).step_eq, fun hpos hle => ?_⟩
  exact ⟨_, (StepsTo.encData hq ((dataLengthOk_iff data).mpr ⟨hpos, hle⟩)).step_eq, rfl, rfl, rfl, rfl⟩

/-! ### Idleness and observation (R91, R95) -/

/-- Settles O22: the step of an empty sequence is `idle`, which only drops the response. -/
theorem idlenessChangesNothing : Obligations.IdlenessChangesNothing := step_nil

theorem zeroExtend16_inj {b b' : Byte} : zeroExtend16 b = zeroExtend16 b' ↔ b = b' := by
  refine ⟨fun h => ?_, congrArg zeroExtend16⟩
  rw [← lowByte_zeroExtend16 b, h, lowByte_zeroExtend16]

theorem responses_atCur_csNeg (s : State) :
    responses [.atCur, .csNeg] s = [some s.addr, some (zeroExtend16 (negateSum s.sum))] := by
  rw [responses_cons (exec_atCur s), responses_cons (exec_csNeg _), responses_nil]
  rfl

/-- Settles O35: `AT.CUR` answers `ADDR` itself, and `CS.NEG` a response that only one `SUM` gives. -/
theorem registersAreObservable : Obligations.RegistersAreObservable := by
  intro s s' h
  rw [responses_atCur_csNeg, responses_atCur_csNeg] at h
  obtain ⟨haddr, hneg⟩ : s.addr = s'.addr ∧ zeroExtend16 (negateSum s.sum) = zeroExtend16 (negateSum s'.sum) := by
    simpa only [List.cons.injEq, Option.some.injEq, and_true] using h
  exact ⟨haddr, negateSum_inj.mp (zeroExtend16_inj.mp hneg)⟩

end Sys2Proof.Machine
end

section
/-! SUPPORT. Proofs of the statements of spec/70_reset_and_hazards.md: reset against a presented command (R95) and the
hazards of a sequence that leaves out `CS.CLR` (R99) or advances too early (R100, R101). The rules they need come first. -/

namespace Sys2Proof.Machine

/-! ### Reset (R86, R95) -/

theorem step_reset {s : State} {ignored : Option Presented} {q : List Action}
    (h : s.host.queue = .reset ignored :: q) : step s = .next (s.withQueue q).resetBlock :=
  (StepsTo.reset h).step_eq

/-- Settles O24: the step resets the block whatever word stands beside the reset, and asserting reset only replaces the
host's sequence. -/
theorem resetWinsOverTheCommand : Obligations.ResetWinsOverTheCommand :=
  ⟨fun _ _ _ hq => ⟨_, step_reset hq, rfl, rfl, rfl, rfl⟩,
    fun s ignored plan =>
      ⟨_, step_reset (State.withQueue_host_queue s (.reset ignored :: plan)), rfl, rfl, rfl, rfl⟩⟩

/-! ### A missing `CS.CLR` (R99) -/

/-- Adds go on from the `SUM` they find, and `CS.NEG` after them answers the negation of the whole. -/
theorem getLast?_responses_map_csAdd_csNeg (f : List Byte) (s : State) :
    (responses (f.map Instr.csAdd ++ [.csNeg]) s).getLast? =
      some (some (zeroExtend16 (negateSum (s.sum + sumBytes f)))) := by
  induction f generalizing s with
  | nil =>
    rw [sumBytes_nil, add_zero, List.map_nil, List.nil_append, responses_cons (exec_csNeg s), responses_nil,
      List.getLast?_singleton, State.respond_rsp]
  | cons b f ih =>
    rw [sumBytes_cons, ← add_assoc, ← wrapAddSum_eq s.sum b]
    exact getLast?_responses_cons (exec_csAdd b s) (ih (s.writeSum (wrapAddSum s.sum b)).noResponse)

/-- The old `SUM` spoils every checksum but that of a cleared one: negation is injective. -/
theorem negateSum_wrapAddSum_eq_iff (old new : Byte) :
    negateSum (wrapAddSum old new) = negateSum new ↔ old = 0x00 := by
  rw [negateSum_inj, wrapAddSum_eq]
  exact add_eq_right

/-- Settles O44: the first `CS.NEG` keeps `SUM`, so the adds go on from it. -/
theorem missingClearSpoilsTheNextChecksum : Obligations.MissingClearSpoilsTheNextChecksum := by
  refine fun f s => ⟨?_, negateSum_wrapAddSum_eq_iff s.sum (sumBytes f)⟩
  rw [wrapAddSum_eq]
  exact getLast?_responses_cons (exec_csNeg s) (getLast?_responses_map_csAdd_csNeg f _)

/-! ### An early or repeated advance (R100, R101) -/

theorem responses_atCur_cons (is : List Instr) (s : State) :
    responses (.atCur :: is) s = some s.addr :: responses is (s.respond s.addr) :=
  responses_cons (exec_atCur s) is

theorem responses_atAdv_cons (n : Word) (is : List Instr) (s : State) :
    responses (.atAdv n :: is) s = none :: responses is (s.writeAddr (s.addr + n)).noResponse := by
  rw [responses_cons (exec_atAdv n s), wrapAddAddr_eq, State.noResponse_rsp]

/-- Settles O45: `AT.CUR` answers the `ADDR` that the advances before it have written. -/
theorem addressIsReadBeforeTheAdvance : Obligations.AddressIsReadBeforeTheAdvance := by
  refine fun n s => ⟨?_, ?_, ?_⟩ <;> simp only [responses_atCur_cons, responses_atAdv_cons, responses_nil,
    State.noResponse_addr, State.writeAddr_addr]

end Sys2Proof.Machine
end
